-- ==== Sys2Proof/Word.lean ====
section
/-! DEFINITION. The words of HUFFCORE and their plainest constants (00_scope.md R8, R9, R10). -/

namespace Sys2Proof

/-- A host-visible register, a weight, a frequency or a node index: 32 bits, unsigned (R8). -/
abbrev Word := BitVec 32

/-- A byte of a register as a platform bridge lays it out (R52). -/
abbrev Byte := BitVec 8

/-- A symbol: exactly 16 bits, unsigned, never extended with a sign (R8, R71). -/
abbrev Symbol := BitVec 16

/-- A bit string, first bit first (R10): `false` is the bit 0 and `true` the bit 1. -/
abbrev BitString := List Bool

/-- NONE, "no node" (10_state.md R20). -/
def noNode : Word := 0xFFFFFFFF#32

/-- The largest 32-bit value, the bound of `totalW` (R31, R122). -/
def maxWord : Nat := 0xFFFFFFFF

end Sys2Proof
end

