-- ==== Sys2Proof/Config.lean ====
section
/-! DEFINITION. The implementation parameters (00_scope.md R7) and the free values, which no proof can evaluate. -/

namespace Sys2Proof

/-- The parameters of R7. They are fixed for one instance: State carries them and no step writes them (log entry 4). -/
structure Params where
  /-- MAX_SYMS, the capacity of the frequency table. -/
  maxSyms  : Nat
  /-- OUT_CAP, the capacity of the output buffer in bits. -/
  outCap   : Nat
  /-- HUFF_BASE, the byte address of the register window in the host's address space. -/
  huffBase : Nat
  deriving DecidableEq, Repr

/-- The legal ranges of R7. HUFF_BASE is the platform's and has none. -/
def Params.legal (p : Params) : Bool :=
  decide (2 ≤ p.maxSyms) && decide (p.maxSyms ≤ 65536) && decide (1 ≤ p.outCap) && decide (p.outCap ≤ 0xFFFFFFFF)

namespace Config

/-- HUFF_BASE of the instance that State.reset describes. OPEN in R7 and U15: uninterpreted (log entry 5). -/
opaque huffBase : Nat

/-- FREE VALUE. What the n-th read of a result or count register while BUSY = 1 returns: "an unspecified 32-bit value (a
draw in the model, under no law)" (R57, U8; log entry 7). -/
opaque freeRead : Nat → Word

/-- FREE VALUE. The content of a HEAP cell, or the weight of a NODE cell, outside the valid count (R40, U7; log entry 8).
No run reads one. -/
opaque unspecifiedWord : Nat → Word

/-- FREE VALUE. The content of a CODE cell that no walk has written (R40, U7; log entry 8). No run reads one. -/
opaque unspecifiedBits : Nat → BitString

/-- The parameters' defaults (R7); HUFF_BASE has none and stays open. -/
def defaults : Params := { maxSyms := 256, outCap := 65536, huffBase := huffBase }

end Config

end Sys2Proof
end

