-- ==== Sys2Proof/Syntax.lean ====
section
/-! DEFINITION. The commands (30_encoding.md R73), the fields of a command word (R70), the registers of the window
(10_state.md R21) and the host's bus operations (R50, R78, R80). -/

namespace Sys2Proof

/-- The eighteen commands of R73, in the table's order. The symbol is CMD[15:0] (R71); a 32-bit operand is no part of the
command: it stands in ARG (R72). -/
inductive Instr where
  | nop
  | clear
  | errAck
  | outClear
  | ftAdd (sym : Symbol)
  | ftRead
  | treeInit
  | treeStep
  | treeFinish
  | treeBuild
  | nodeRead
  | pqPeek
  | heapRead
  | codesBuild
  | codeLen (sym : Symbol)
  | codeWord (sym : Symbol)
  | encode (sym : Symbol)
  | outRead
  deriving DecidableEq, Repr

/-- The three fields of a command word (R70). -/
structure CommandWord where
  /-- OPC, bits [31:24]. -/
  opc : BitVec 8
  /-- RSV, bits [23:16]. -/
  rsv : BitVec 8
  /-- SYM, bits [15:0]. -/
  sym : Symbol
  deriving DecidableEq, Repr

/-- The word slots of the window (R21); `reserved` stands for each of the offsets 0x44 to 0x7C. -/
inductive Reg where
  | id | version | capSyms | capOut | status | cmd | arg
  | res0 | res1 | res2 | res3
  | alphaK | pqCount | nodeCount | root | outLen | totalW
  | reserved
  deriving DecidableEq, Repr

/-- One operation of the host on the bus (R50, R78, R80), or an input of the platform. Addresses are the host's own, so the
offset in the window is the address less HUFF_BASE (R50); `bytes` is the width of the access, so that the accesses R51
refuses can be written down too. -/
inductive HostOp where
  /-- `read REG`: a bus read, its value recorded in the program's trace. -/
  | read  (addr bytes : Nat)
  /-- `write REG, v`: a bus write. -/
  | write (addr bytes : Nat) (v : Word)
  /-- `wait`: read STATUS until BUSY reads 0. -/
  | wait
  /-- `check REG, v`: a bus read, recorded as a test failure when the value is not `v`. -/
  | check (addr bytes : Nat) (v : Word)
  /-- The platform asserts and releases reset (R230). -/
  | reset
  deriving DecidableEq, Repr

/-- The two agents of R6. -/
inductive Agent where
  | host
  | core
  deriving DecidableEq, Repr

end Sys2Proof
end

