-- ==== Sys2Proof/WellFormed.lean ====
section
/-! DEFINITION. What is well formed: a command word (30_encoding.md R73 to R76), an instruction, and a host access
(20_memory.md R50, R51). -/

namespace Sys2Proof

/-- The opcodes of R73 that take a symbol operand. -/
def symbolOpcodes : List (BitVec 8) := [0x10#8, 0x31#8, 0x32#8, 0x40#8]

/-- The opcodes of R73 that take none. -/
def plainOpcodes : List (BitVec 8) :=
  [0x00#8, 0x01#8, 0x02#8, 0x03#8, 0x11#8, 0x20#8, 0x21#8, 0x22#8, 0x23#8, 0x24#8, 0x28#8, 0x29#8, 0x30#8, 0x41#8]

/-- OPC is assigned: every other opcode is reserved (R75). -/
def CommandWord.opcodeAssigned (c : CommandWord) : Bool := symbolOpcodes.contains c.opc || plainOpcodes.contains c.opc

/-- RSV must be 0x00 (R70, R76). -/
def CommandWord.reservedZero (c : CommandWord) : Bool := c.rsv == 0#8

/-- SYM must be 0x0000 for a command without a symbol operand (R70, R76). -/
def CommandWord.symbolAllowed (c : CommandWord) : Bool := symbolOpcodes.contains c.opc || c.sym == 0#16

/-- A command word that R74 does not make an IllegalCommand. -/
def CommandWord.wellFormed (c : CommandWord) : Bool := c.opcodeAssigned && c.reservedZero && c.symbolAllowed

/-- The fields of an instruction's word, row by row of R73. -/
def Instr.fields : Instr → CommandWord
  | .nop          => ⟨0x00#8, 0#8, 0#16⟩
  | .clear        => ⟨0x01#8, 0#8, 0#16⟩
  | .errAck       => ⟨0x02#8, 0#8, 0#16⟩
  | .outClear     => ⟨0x03#8, 0#8, 0#16⟩
  | .ftAdd sym    => ⟨0x10#8, 0#8, sym⟩
  | .ftRead       => ⟨0x11#8, 0#8, 0#16⟩
  | .treeInit     => ⟨0x20#8, 0#8, 0#16⟩
  | .treeStep     => ⟨0x21#8, 0#8, 0#16⟩
  | .treeFinish   => ⟨0x22#8, 0#8, 0#16⟩
  | .treeBuild    => ⟨0x23#8, 0#8, 0#16⟩
  | .nodeRead     => ⟨0x24#8, 0#8, 0#16⟩
  | .pqPeek       => ⟨0x28#8, 0#8, 0#16⟩
  | .heapRead     => ⟨0x29#8, 0#8, 0#16⟩
  | .codesBuild   => ⟨0x30#8, 0#8, 0#16⟩
  | .codeLen sym  => ⟨0x31#8, 0#8, sym⟩
  | .codeWord sym => ⟨0x32#8, 0#8, sym⟩
  | .encode sym   => ⟨0x40#8, 0#8, sym⟩
  | .outRead      => ⟨0x41#8, 0#8, 0#16⟩

/-- An instruction is well formed when its word is. A symbol is a 16-bit value by its type (R71), so every term of Instr is:
the checks that can fail are those of `CommandWord.wellFormed`. -/
def Instr.wellFormed (i : Instr) : Bool := i.fields.wellFormed

/-- The access is 32 bits wide (R51). -/
def accessWidthOk (bytes : Nat) : Bool := bytes == 4

/-- The access lies in the window 0x00 to 0x7C at HUFF_BASE (R50, R51). -/
def accessInWindow (p : Params) (addr : Nat) : Bool := decide (p.huffBase ≤ addr) && decide (addr - p.huffBase < 0x80)

/-- The offset is a multiple of 4 (R50, R51). -/
def accessAligned (p : Params) (addr : Nat) : Bool := (addr - p.huffBase) % 4 == 0

/-- A host operation HUFFCORE defines: a single aligned 32-bit access in the window, or no access at all (R50, R51). -/
def HostOp.wellFormed (p : Params) : HostOp → Bool
  | .read addr bytes    => accessWidthOk bytes && accessInWindow p addr && accessAligned p addr
  | .write addr bytes _ => accessWidthOk bytes && accessInWindow p addr && accessAligned p addr
  | .check addr bytes _ => accessWidthOk bytes && accessInWindow p addr && accessAligned p addr
  | .wait               => true
  | .reset              => true

end Sys2Proof
end

