-- ==== Sys2Proof/Decode.lean ====
section
/-! DEFINITION. The decoder (30_encoding.md R70 to R77), total on every word and every byte string, and the encoder. -/

namespace Sys2Proof

/-- Why bytes are no command. The first three are R74's IllegalCommand. -/
inductive IllegalCause where
  /-- OPC is not an opcode of R73 (R75). -/
  | reservedOpcode
  /-- RSV is not 0x00 (R76). -/
  | reservedField
  /-- SYM is not 0x0000 for a command without a symbol operand (R76). -/
  | symbolField
  /-- Fewer than the four bytes every command has (R77); no word of the CMD register is ever short. -/
  | truncated
  deriving DecidableEq, Repr

/-- R70: the fields of a 32-bit command word. -/
def splitWord (w : Word) : CommandWord :=
  { opc := w.extractLsb' 24 8, rsv := w.extractLsb' 16 8, sym := w.extractLsb' 0 16 }

/-- R70: the command word of three fields. -/
def joinWord (c : CommandWord) : Word := c.opc ++ c.rsv ++ c.sym

/-- The row of R73 that an opcode selects, with the symbol its SYM field gives. -/
def opcodeRow (opc : BitVec 8) (sym : Symbol) : Option Instr :=
  match opc.toNat with
  | 0x00 => some .nop
  | 0x01 => some .clear
  | 0x02 => some .errAck
  | 0x03 => some .outClear
  | 0x10 => some (.ftAdd sym)
  | 0x11 => some .ftRead
  | 0x20 => some .treeInit
  | 0x21 => some .treeStep
  | 0x22 => some .treeFinish
  | 0x23 => some .treeBuild
  | 0x24 => some .nodeRead
  | 0x28 => some .pqPeek
  | 0x29 => some .heapRead
  | 0x30 => some .codesBuild
  | 0x31 => some (.codeLen sym)
  | 0x32 => some (.codeWord sym)
  | 0x40 => some (.encode sym)
  | 0x41 => some .outRead
  | _ => none

/-- Whether the row of R73 has "symbol" in its SYM column. -/
def takesSymbol : Instr → Bool
  | .ftAdd _ => true
  | .codeLen _ => true
  | .codeWord _ => true
  | .encode _ => true
  | .nop => false
  | .clear => false
  | .errAck => false
  | .outClear => false
  | .ftRead => false
  | .treeInit => false
  | .treeStep => false
  | .treeFinish => false
  | .treeBuild => false
  | .nodeRead => false
  | .pqPeek => false
  | .heapRead => false
  | .codesBuild => false
  | .outRead => false

/-- R74, Decode: its three tests in its order. -/
def decodeFields (c : CommandWord) : Except IllegalCause Instr :=
  match opcodeRow c.opc c.sym with
  | none => .error .reservedOpcode
  | some i =>
    if c.rsv ≠ 0#8 then .error .reservedField
    else if takesSymbol i = false ∧ c.sym ≠ 0#16 then .error .symbolField
    else .ok i

/-- R74: Decode of a command word, total on all 2^32 words. -/
def decodeWord (w : Word) : Except IllegalCause Instr := decodeFields (splitWord w)

/-- A register from the bytes a bridge lays out, "bit 7..0 at the lowest byte address (little-endian)" (R52). -/
def wordOfBytes (b0 b1 b2 b3 : Byte) : Word := b3 ++ b2 ++ b1 ++ b0

/-- The bytes of a register, lowest address first (R52). -/
def bytesOfWord (w : Word) : List Byte :=
  [w.extractLsb' 0 8, w.extractLsb' 8 8, w.extractLsb' 16 8, w.extractLsb' 24 8]

/-- Decoding a command that a bridge carries as bytes: always four of them (R77). Total on any bytes. -/
def decodeBytes : List Byte → Except IllegalCause (Instr × List Byte)
  | b0 :: b1 :: b2 :: b3 :: rest =>
    match decodeWord (wordOfBytes b0 b1 b2 b3) with
    | .ok i => .ok (i, rest)
    | .error c => .error c
  | _ => .error .truncated

/-- The command word whose low `nbits` bits are those of `w`, as spec/opcode_table.json numbers them: the table's bit 0 is
bit 0 of the word (R9). -/
def tableWord (nbits w : Nat) : Word := BitVec.ofNat 32 (w % 2 ^ nbits)

/-- What the decoder reads from the bytes of that word. -/
def decodeTableWord (nbits w : Nat) : Option Instr :=
  match decodeBytes (bytesOfWord (tableWord nbits w)) with
  | .ok (i, _) => some i
  | .error _ => none

/-- The encoder: the word of an instruction, from the rows of R73 (`Instr.fields`). -/
def encode (i : Instr) : Word := joinWord i.fields

/-- The encoder to a bridge's bytes (R52). -/
def encodeBytes (i : Instr) : List Byte := bytesOfWord (encode i)

end Sys2Proof
end

