-- ==== Sys2Proof/Machine/State.lean ====
section
/-! DEFINITION. The state of one HUFFCORE instance (10_state.md R20 to R41), its reset values (R41), and the ways a step can
stop. -/

namespace Sys2Proof.Machine

/-- The sequencer phase (R29). -/
inductive Phase where
  | loading
  | queued
  | tree
  | coded
  deriving DecidableEq, Repr

/-- The completion codes: exactly the twelve of R201 (U11). -/
inductive Code where
  | ok
  | emptyAlphabet
  | emptyQueue
  | missingCode
  | illegalCommand
  | sequence
  | zeroFrequency
  | duplicateSymbol
  | alphabetFull
  | weightOverflow
  | outputOverflow
  | indexRange
  deriving DecidableEq, Repr

/-- A frequency-table entry (R30). -/
structure FtEntry where
  sym  : Symbol
  freq : Word
  deriving DecidableEq, Repr

/-- A node of the arena (R20, R32, R130): the explicit tagged variant. -/
inductive Node where
  | leaf (sym : Symbol) (weight : Word)
  | internal (weight left right : Word)
  deriving DecidableEq, Repr

/-- What a host program's operations left behind for its observer (R78, R240). -/
inductive TraceEntry where
  /-- A read of the register at a byte offset returned a value. -/
  | read (off : Nat) (v : Word)
  /-- A poll of a `wait`, a read of STATUS the host repeats by itself, returned a value. -/
  | poll (v : Word)
  /-- A `check` wanted one value and the read returned another. -/
  | checkFailed (off : Nat) (wanted got : Word)
  deriving DecidableEq, Repr

/-- The environment of the instance: the MODEL's own fields, none of them the spec's state (R20: "the host's program [is] not
state"; log entries 3, 6, 7, 20). -/
structure HostEnv where
  /-- The operations still to come, in program order (R58). -/
  ops   : List HostOp
  /-- Who moves, at each point where the core has a command in flight; no entry left: the core (U18, R239). -/
  turns : List Agent
  /-- What the reads returned, oldest first. -/
  trace : List TraceEntry
  /-- How many unspecified reads (R57) have been drawn so far. -/
  draws : Nat
  /-- Whether CMD has been written and no read of STATUS since then has returned BUSY = 0 (R240; log entry 20). -/
  unconfirmed : Bool
  deriving DecidableEq, Repr

/-- The record of R20. An array is held as its valid entries, so that its count is its length (R40; log entry 2), and BUSY is
whether a command word is pending (R38; log entry 1). `params` is the configuration (R7; log entry 4) and `env` the
environment. -/
structure State where
  params  : Params
  arg     : Word
  res0    : Word
  res1    : Word
  res2    : Word
  res3    : Word
  sticky  : Bool
  overrun : Bool
  last    : Code
  phase   : Phase
  pending : Option Word
  ft      : List FtEntry
  totalW  : Word
  nodes   : List Node
  root    : Word
  heap    : List Word
  code    : List BitString
  out     : BitString
  env     : HostEnv
  deriving DecidableEq, Repr

/-- STATUS.BUSY: "`busy = true` exactly when `pending` is a word" (R38). -/
def State.busy (s : State) : Bool := s.pending.isSome

/-- k, the alphabet size (R30). -/
def State.k (s : State) : Nat := s.ft.length

/-- nodeCount (R32). -/
def State.nodeCount (s : State) : Nat := s.nodes.length

/-- pqCount (R33); Count() of R104. -/
def State.pqCount (s : State) : Nat := s.heap.length

/-- outLen (R36). -/
def State.outLen (s : State) : Nat := s.out.length

/-- HUFFCORE stops on nothing: "every command completes" (R239) with a completion code (R200), and has no stuck behaviour.
So no constructor: an error of the spec is a next state. -/
inductive Fault where
  deriving DecidableEq, Repr

/-- Why the model gives a step no meaning. -/
inductive Refusal where
  /-- Raised by an arm of `exec` whose instruction has no meaning yet; safe. -/
  | notModelled (mnemonic : String)
  /-- Raised by a host access of a width other than 32 bits (R51, U9: "refuse"); safe. -/
  | accessWidth
  /-- Raised by a host access outside the window's 0x00 to 0x7C (R51, U9: "refuse"); safe. -/
  | accessOutsideWindow
  /-- Raised by a misaligned host access (R51, U9: "refuse"); safe. -/
  | accessMisaligned
  deriving DecidableEq, Repr

/-- The environment of State.reset: no host program, no choice made, nothing read, no command written (log entries 3, 6, 7,
20; DESIGN CHOICE). -/
def HostEnv.start : HostEnv := { ops := [], turns := [], trace := [], draws := 0, unconfirmed := false }

/-- R41, R230: every piece of the spec's state at its reset value, the parameters and the environment as given. -/
def State.atReset (p : Params) (e : HostEnv) : State where
  params  := p
  arg     := 0#32
  res0    := 0#32
  res1    := 0#32
  res2    := 0#32
  res3    := 0#32
  sticky  := false
  overrun := false
  last    := .ok
  phase   := .loading
  pending := none
  ft      := []
  totalW  := 0#32
  nodes   := []
  root    := noNode
  heap    := []
  code    := []
  out     := []
  env     := e

/-- The machine right after reset (R41), with the default parameters (R7) and no host program. -/
def State.reset : State := State.atReset Config.defaults HostEnv.start

end Sys2Proof.Machine
end

