-- ==== Sys2Proof/Machine/Flags.lean ====
section
/-! DEFINITION. The STATUS register, the only flag register (10_state.md R26, R29; 60_exceptions.md R201): its encodings and
how each flag is computed. -/

namespace Sys2Proof.Machine

/-- The phase's encoding (R29). -/
def phaseBits : Phase → BitVec 2
  | .loading => 0#2
  | .queued  => 1#2
  | .tree    => 2#2
  | .coded   => 3#2

/-- The completion code's number (R201). -/
def codeByte : Code → Byte
  | .ok              => 0x00#8
  | .emptyAlphabet   => 0x01#8
  | .emptyQueue      => 0x02#8
  | .missingCode     => 0x03#8
  | .illegalCommand  => 0x10#8
  | .sequence        => 0x11#8
  | .zeroFrequency   => 0x12#8
  | .duplicateSymbol => 0x13#8
  | .alphabetFull    => 0x14#8
  | .weightOverflow  => 0x15#8
  | .outputOverflow  => 0x16#8
  | .indexRange      => 0x17#8

/-- The content of STATUS (R26): [0] BUSY, [1] STICKY, [2] OVERRUN, [3] 0, [5:4] PHASE, [7:6] 0, [15:8] LAST, [31:16] 0. -/
def statusWord (s : State) : Word :=
  0#16 ++ codeByte s.last ++ 0#2 ++ phaseBits s.phase ++ 0#1 ++ BitVec.ofBool s.overrun ++ BitVec.ofBool s.sticky ++
    BitVec.ofBool s.busy

/-- STICKY after a completion (R204): set by every code other than OK, cleared by none. -/
def stickyAfter (sticky : Bool) (c : Code) : Bool := if c = .ok then sticky else true

end Sys2Proof.Machine
end

