-- ==== Sys2Proof/Machine/Operands.lean ====
section
/-! DEFINITION. Operand forms: the symbol operand and its slot (41_frequency_table.md R121), ARG as an index or a frequency
(30_encoding.md R72), and bit strings packed into words (20_memory.md R65). -/

namespace Sys2Proof.Machine

/-- ARG as an unsigned index or word index (R72). -/
abbrev argIndex (s : State) : Nat := s.arg.toNat

/-- Lookup(s): the slot of a symbol, the first where a table no run reaches has two (R121). -/
def lookup (ft : List FtEntry) (sym : Symbol) : Option Nat := ft.findIdx? (fun e => e.sym == sym)

/-- zext_32 of a count or index (R9, R31, R36, R37). -/
def zext32 (n : Nat) : Word := BitVec.ofNat 32 n

/-- zext_32 of a symbol (R9, R123). -/
def zextSymbol (sym : Symbol) : Word := sym.zeroExtend 32

/-- Bit b of word j of a packed string, as a number: p(32*j + b) when that position lies inside the string, else 0. Unbounded
arithmetic, so 32*j never wraps (R65). -/
def packedBit (p : BitString) (j b : Nat) : Nat := if p[32 * j + b]?.getD false then 1 else 0

/-- Pack(p, len(p), j) (R65). -/
def pack (p : BitString) (j : Nat) : Word :=
  BitVec.ofNat 32 ((List.range 32).map (fun b => packedBit p j b * 2 ^ b)).sum

end Sys2Proof.Machine
end

