-- ==== Sys2Proof/Machine/Ops.lean ====
section
/-! DEFINITION. The operations every command shares: completion and abort (60_exceptions.md R204, R205), the internal arrays
(20_memory.md R64), and the priority queue's micro-operations (40_priority_queue.md R100 to R104). -/

namespace Sys2Proof.Machine

/-- What a step answers. -/
abbrev Result := Host.Outcome State Fault Refusal

/-- Complete(code) (R204): LAST, STICKY, and no command in flight any more. OVERRUN and PHASE are not written. -/
def complete (c : Code) (s : State) : State :=
  { s with last := c, sticky := stickyAfter s.sticky c, pending := none }

/-- `complete()`: the command commits the writes made to `s` and completes with OK (R204). -/
def finish (s : State) : Result := .next (complete .ok s)

/-- `raise Error(code)` (R205): given the state in which the command's core step began, every other write is discarded and
the command completes with the code. This is HUFFCORE's whole error mechanism: it has no trap, handler or saved state
(R218, R219). -/
def raise (c : Code) (s : State) : Result := .next (complete c s)

/-- The weight of a node (R130). -/
def nodeWeight : Node → Word
  | .leaf _ w => w
  | .internal w _ _ => w

/-- W(n) (R11). A node index outside the arena, which no run has in a queue or a tree, holds an unspecified weight (R40). -/
def weightOf (nodes : List Node) (n : Word) : Word :=
  match nodes[n.toNat]? with
  | some nd => nodeWeight nd
  | none => Config.unspecifiedWord n.toNat

/-- HEAP[i] (R33); unspecified outside the valid count (R40). -/
def heapAt (h : List Word) (i : Nat) : Word := h[i]?.getD (Config.unspecifiedWord i)

/-- swap HEAP[i], HEAP[j] (R101, R102). -/
def heapSwap (h : List Word) (i j : Nat) : List Word := (h.set i (heapAt h j)).set j (heapAt h i)

/-- The parent of a position (R100). -/
def heapParent (i : Nat) : Nat := (i - 1) / 2

/-- The left child of a position (R100). -/
def heapLeft (i : Nat) : Nat := 2 * i + 1

/-- The right child of a position (R100). -/
def heapRight (i : Nat) : Nat := 2 * i + 2

/-- The loop of Enqueue (R101): an item moves above its parent only when strictly lighter. `fuel` bounds the rounds; the
position halves each round, so as many as there are entries suffice (R239). `key` gives the weight of a node index. -/
def siftUp (key : Word → Word) : (fuel : Nat) → List Word → Nat → List Word
  | 0, h, _ => h
  | fuel + 1, h, i =>
    if i = 0 then h
    else if (key (heapAt h i)).toNat < (key (heapAt h (heapParent i))).toNat then
      siftUp key fuel (heapSwap h i (heapParent i)) (heapParent i)
    else h

/-- Enqueue(n) (R101). -/
def heapEnqueue (key : Word → Word) (h : List Word) (n : Word) : List Word :=
  siftUp key (h.length + 1) (h ++ [n]) h.length

/-- The child Dequeue looks at (R102): the right one only when it exists and is strictly lighter than the left. -/
def lighterChild (key : Word → Word) (h : List Word) (i : Nat) : Nat :=
  if heapRight i < h.length ∧ (key (heapAt h (heapRight i))).toNat < (key (heapAt h (heapLeft i))).toNat then heapRight i
  else heapLeft i

/-- The loop of Dequeue (R102): an item moves down only when the chosen child is strictly lighter. The position at least
doubles each round, so as many rounds as there are entries suffice (R239). -/
def siftDown (key : Word → Word) : (fuel : Nat) → List Word → Nat → List Word
  | 0, h, _ => h
  | fuel + 1, h, i =>
    if h.length ≤ heapLeft i then h
    else if (key (heapAt h i)).toNat ≤ (key (heapAt h (lighterChild key h i))).toNat then h
    else siftDown key fuel (heapSwap h i (lighterChild key h i)) (lighterChild key h i)

/-- Dequeue() (R102): the minimum and the queue without it; none where R102 raises EMPTY_QUEUE. -/
def heapDequeue (key : Word → Word) (h : List Word) : Option (Word × List Word) :=
  if h.length = 0 then none
  else
    let last := h.length - 1
    some (heapAt h 0, siftDown key last ((h.set 0 (heapAt h last)).take last) 0)

/-- PeekMin() (R103); none where it raises EMPTY_QUEUE. -/
def heapPeekMin (h : List Word) : Option Word := if h.length = 0 then none else some (heapAt h 0)

/-- CODE[i] (R35); unspecified where no walk has written it (R40). -/
def codeAt (s : State) (i : Nat) : BitString := s.code[i]?.getD (Config.unspecifiedBits i)

end Sys2Proof.Machine
end

