-- ==== Sys2Proof/Machine/CodeTable.lean ====
section
/-! DEFINITION. The code-table engine (43_code_table.md R150 to R156). -/

namespace Sys2Proof.Machine

/-- Walk(n, p) (R151), writing the codes of the leaves below node n into the table: left 0, right 1. A child's index is
below its parent's (R32), so as many levels as there are nodes suffice as fuel (R239); a node index outside the arena, which
no tree of a run holds, writes nothing (R40). -/
def walk (nodes : List Node) : (fuel : Nat) → Word → BitString → List BitString → List BitString
  | 0, _, _, code => code
  | fuel + 1, n, p, code =>
    match nodes[n.toNat]? with
    | none => code
    | some (.leaf _ _) => code.set n.toNat p
    | some (.internal _ l r) => walk nodes fuel r (p ++ [true]) (walk nodes fuel l (p ++ [false]) code)

/-- The k slots of the code table before a walk: unspecified (R40). -/
def blankCodes (k : Nat) : List BitString := (List.range k).map Config.unspecifiedBits

/-- Codes() := Walk(root, []) (R151). -/
def codesOf (s : State) : List BitString := walk s.nodes s.nodeCount s.root [] (blankCodes s.k)

/-- CODES_BUILD (R152). -/
def execCodesBuild (s : State) : Result :=
  if s.phase ≠ .tree then raise .sequence s
  else finish { s with code := codesOf s, phase := .coded }

/-- CODE_LEN (R153): RES0 the length of the symbol's code and RES1 its slot. -/
def execCodeLen (sym : Symbol) (s : State) : Result :=
  if s.phase ≠ .coded then raise .sequence s
  else
    match lookup s.ft sym with
    | none => raise .missingCode s
    | some i => finish { s with res0 := zext32 (codeAt s i).length, res1 := zext32 i }

/-- CODE_WORD (R154): RES0 is word ARG of the symbol's packed code; every word index is legal. -/
def execCodeWord (sym : Symbol) (s : State) : Result :=
  if s.phase ≠ .coded then raise .sequence s
  else
    match lookup s.ft sym with
    | none => raise .missingCode s
    | some i => finish { s with res0 := pack (codeAt s i) (argIndex s) }

end Sys2Proof.Machine
end

