-- ==== Sys2Proof/Machine/Control.lean ====
section
/-! DEFINITION. The control commands (45_system.md R180 to R182). -/

namespace Sys2Proof.Machine

/-- NOP (R180): "Does nothing but complete." -/
def execNop (s : State) : Result := finish s

/-- CLEAR (R181): discards the current job and returns to LOADING. ARG, RES, STICKY and OVERRUN are unchanged. -/
def execClear (s : State) : Result :=
  finish { s with
    ft := [], totalW := 0#32, nodes := [], heap := [], root := noNode, code := [], out := [], phase := .loading }

/-- ERR_ACK (R182): clears STICKY and OVERRUN. -/
def execErrAck (s : State) : Result := finish { s with sticky := false, overrun := false }

end Sys2Proof.Machine
end

