-- ==== Sys2Proof/Machine/Encoder.lean ====
section
/-! DEFINITION. The bit-concatenation encoder (44_encoder.md R170 to R173). -/

namespace Sys2Proof.Machine

/-- ENCODE (R170): appends the symbol's code to the output; an exact fill succeeds. -/
def execEncode (sym : Symbol) (s : State) : Result :=
  if s.phase ≠ .coded then raise .sequence s
  else
    match lookup s.ft sym with
    | none => raise .missingCode s
    | some i =>
      if s.params.outCap < s.outLen + (codeAt s i).length then raise .outputOverflow s
      else finish { s with out := s.out ++ codeAt s i }

/-- OUT_READ (R171): RES0 is word ARG of the packed output; every word index is legal in every phase. -/
def execOutRead (s : State) : Result := finish { s with res0 := pack s.out (argIndex s) }

/-- OUT_CLEAR (R172): empties the output buffer. -/
def execOutClear (s : State) : Result := finish { s with out := [] }

end Sys2Proof.Machine
end

