-- ==== Sys2Proof/Machine/FrequencyTable.lean ====
section
/-! DEFINITION. The frequency-table commands (41_frequency_table.md R120 to R123). -/

namespace Sys2Proof.Machine

/-- FT_ADD (R122): appends one (symbol, frequency) entry; its five checks in their order. -/
def execFtAdd (sym : Symbol) (s : State) : Result :=
  if s.phase ≠ .loading then raise .sequence s
  else if s.arg = 0#32 then raise .zeroFrequency s
  else if lookup s.ft sym ≠ none then raise .duplicateSymbol s
  else if s.k = s.params.maxSyms then raise .alphabetFull s
  else if maxWord < s.totalW.toNat + s.arg.toNat then raise .weightOverflow s
  else finish { s with ft := s.ft ++ [{ sym := sym, freq := s.arg }], totalW := s.totalW + s.arg }

/-- FT_READ (R123): RES0 the frequency and RES1 the symbol of slot ARG. -/
def execFtRead (s : State) : Result :=
  match s.ft[argIndex s]? with
  | none => raise .indexRange s
  | some e => finish { s with res0 := e.freq, res1 := zextSymbol e.sym }

end Sys2Proof.Machine
end

