-- ==== Sys2Proof/Machine/PriorityQueue.lean ====
section
/-! DEFINITION. The priority-queue commands (40_priority_queue.md R107, R108). -/

namespace Sys2Proof.Machine

/-- PQ_PEEK (R107): RES0 the minimum's node index and RES1 its weight. -/
def execPqPeek (s : State) : Result :=
  match heapPeekMin s.heap with
  | none => raise .emptyQueue s
  | some n => finish { s with res0 := n, res1 := weightOf s.nodes n }

/-- HEAP_READ (R108): RES0 the entry at heap position ARG and RES1 its weight. -/
def execHeapRead (s : State) : Result :=
  if s.pqCount ≤ argIndex s then raise .indexRange s
  else finish { s with res0 := heapAt s.heap (argIndex s), res1 := weightOf s.nodes (heapAt s.heap (argIndex s)) }

end Sys2Proof.Machine
end

