-- ==== Sys2Proof/Machine/TreeBuilder.lean ====
section
/-! DEFINITION. The Huffman tree builder (42_tree_builder.md R130 to R138). -/

namespace Sys2Proof.Machine

/-- The leaves TREE_INIT creates, in slot order (R131). -/
def leafNodes (ft : List FtEntry) : List Node := ft.map (fun e => .leaf e.sym e.freq)

/-- The leaves enqueued one at a time in slot order 0, 1, ..., k-1; no bulk heapify (R131). -/
def enqueueLeaves (nodes : List Node) (k : Nat) : List Word :=
  (List.range k).foldl (fun h i => heapEnqueue (weightOf nodes) h (BitVec.ofNat 32 i)) []

/-- One merge of the builder (R132): the two lightest nodes leave the queue, first dequeued left and second right, and a
new internal node of their sum enters it. None where a Dequeue finds the queue empty. A weight is 32 bits wide (R8); the
sum of two queued weights never exceeds them in a state a run reaches (R132; log entry 10). -/
def mergeTwo (nodes : List Node) (h : List Word) : Option (List Node × List Word) :=
  match heapDequeue (weightOf nodes) h with
  | none => none
  | some (a, h1) =>
    match heapDequeue (weightOf nodes) h1 with
    | none => none
    | some (b, h2) =>
      let nodes' := nodes ++ [Node.internal (weightOf nodes a + weightOf nodes b) a b]
      some (nodes', heapEnqueue (weightOf nodes') h2 (BitVec.ofNat 32 nodes.length))

/-- The loop of TREE_BUILD, "while pqCount > 1" (R134); it runs k - 1 times, so k rounds of fuel suffice (R239). -/
def mergeLoop : (fuel : Nat) → List Node → List Word → Option (List Node × List Word)
  | 0, nodes, h => some (nodes, h)
  | fuel + 1, nodes, h =>
    if 1 < h.length then
      match mergeTwo nodes h with
      | none => none
      | some (nodes', h') => mergeLoop fuel nodes' h'
    else some (nodes, h)

/-- TREE_INIT (R131). -/
def execTreeInit (s : State) : Result :=
  if s.phase ≠ .loading then raise .sequence s
  else if s.k = 0 then raise .emptyAlphabet s
  else finish { s with
    nodes := leafNodes s.ft, heap := enqueueLeaves (leafNodes s.ft) s.k, phase := .queued }

/-- TREE_STEP (R132). -/
def execTreeStep (s : State) : Result :=
  if s.phase ≠ .queued then raise .sequence s
  else if s.pqCount < 2 then raise .emptyQueue s
  else
    match mergeTwo s.nodes s.heap with
    | none => raise .emptyQueue s
    | some (nodes, heap) => finish { s with nodes := nodes, heap := heap }

/-- TREE_FINISH (R133). -/
def execTreeFinish (s : State) : Result :=
  if s.phase ≠ .queued then raise .sequence s
  else if 2 ≤ s.pqCount then raise .sequence s
  else
    match heapDequeue (weightOf s.nodes) s.heap with
    | none => raise .emptyQueue s
    | some (r, heap) => finish { s with root := r, heap := heap, phase := .tree }

/-- TREE_BUILD (R134): the effects of TREE_INIT, of TREE_STEP while more than one node is queued, and of TREE_FINISH, as one
command. "After the checks above none of the inner steps can fail": the two raises inside are there for totality. -/
def execTreeBuild (s : State) : Result :=
  if s.phase ≠ .loading then raise .sequence s
  else if s.k = 0 then raise .emptyAlphabet s
  else
    match mergeLoop s.k (leafNodes s.ft) (enqueueLeaves (leafNodes s.ft) s.k) with
    | none => raise .emptyQueue s
    | some (nodes, h) =>
      match heapDequeue (weightOf nodes) h with
      | none => raise .emptyQueue s
      | some (r, heap) => finish { s with nodes := nodes, root := r, heap := heap, phase := .tree }

/-- NODE_READ (R135): a leaf's RES1 is its symbol in bits [31:16] with the leaf tag in bit 0. -/
def execNodeRead (s : State) : Result :=
  match s.nodes[argIndex s]? with
  | none => raise .indexRange s
  | some (.leaf sym w) =>
    finish { s with res0 := w, res1 := (zextSymbol sym <<< 16) ||| 1#32, res2 := noNode, res3 := noNode }
  | some (.internal w l r) => finish { s with res0 := w, res1 := 0#32, res2 := l, res3 := r }

end Sys2Proof.Machine
end

