-- ==== Sys2Proof/Machine/Dispatch.lean ====
section
/-! DEFINITION. One arm per command (30_encoding.md R73). -/

namespace Sys2Proof.Machine

def exec (i : Instr) (s : State) : Host.Outcome State Fault Refusal :=
  match i with
  | .nop => Sys2Proof.Machine.execNop s
  | .clear => Sys2Proof.Machine.execClear s
  | .errAck => Sys2Proof.Machine.execErrAck s
  | .outClear => Sys2Proof.Machine.execOutClear s
  | .ftAdd sym => Sys2Proof.Machine.execFtAdd sym s
  | .ftRead => Sys2Proof.Machine.execFtRead s
  | .treeInit => Sys2Proof.Machine.execTreeInit s
  | .treeStep => Sys2Proof.Machine.execTreeStep s
  | .treeFinish => Sys2Proof.Machine.execTreeFinish s
  | .treeBuild => Sys2Proof.Machine.execTreeBuild s
  | .nodeRead => Sys2Proof.Machine.execNodeRead s
  | .pqPeek => Sys2Proof.Machine.execPqPeek s
  | .heapRead => Sys2Proof.Machine.execHeapRead s
  | .codesBuild => Sys2Proof.Machine.execCodesBuild s
  | .codeLen sym => Sys2Proof.Machine.execCodeLen sym s
  | .codeWord sym => Sys2Proof.Machine.execCodeWord sym s
  | .encode sym => Sys2Proof.Machine.execEncode sym s
  | .outRead => Sys2Proof.Machine.execOutRead s

end Sys2Proof.Machine
end

