-- ==== Sys2Proof/Machine/CoreStep.lean ====
section
/-! DEFINITION. The core's atomic step (20_memory.md R55; 30_encoding.md R74; 60_exceptions.md R206), and whose move it is
(93_implementation_defined.md U18; 70_reset_and_hazards.md R239). -/

namespace Sys2Proof.Machine

/-- Decode and execute a command word, then complete. A word that decodes to IllegalCommand completes with ILLEGAL_COMMAND
and changes nothing else (R74, R206). -/
def executeWord (w : Word) (s : State) : Result :=
  match decodeWord w with
  | .ok i => exec i s
  | .error _ => raise .illegalCommand s

/-- The agent that moves next. With no command in flight only the host can; with one in flight, the host moves where the
schedule says so and it still has an operation, else the core (log entry 3). -/
def mover (s : State) : Agent :=
  if s.busy then
    match s.env.turns with
    | .host :: _ => if s.env.ops.isEmpty then .core else .host
    | .core :: _ => .core
    | [] => .core
  else .host

/-- A choice is used up by every step made while a command is in flight. -/
def takeTurn (s : State) : State :=
  if s.busy then { s with env := { s.env with turns := s.env.turns.tail } } else s

end Sys2Proof.Machine
end

