-- ==== Sys2Proof/Machine/Window.lean ====
section
/-! DEFINITION. The register window as the host sees it (10_state.md R21 to R37; 20_memory.md R50 to R57). -/

namespace Sys2Proof.Machine

/-- The register at a byte offset of the window (R21). -/
def regAt (off : Nat) : Reg :=
  match off with
  | 0x00 => .id
  | 0x04 => .version
  | 0x08 => .capSyms
  | 0x0C => .capOut
  | 0x10 => .status
  | 0x14 => .cmd
  | 0x18 => .arg
  | 0x1C => .res0
  | 0x20 => .res1
  | 0x24 => .res2
  | 0x28 => .res3
  | 0x2C => .alphaK
  | 0x30 => .pqCount
  | 0x34 => .nodeCount
  | 0x38 => .root
  | 0x3C => .outLen
  | 0x40 => .totalW
  | _ => .reserved

/-- The byte offset of a register (R21); 0x44 is the first of the reserved ones. -/
def regOffset : Reg → Nat
  | .id => 0x00
  | .version => 0x04
  | .capSyms => 0x08
  | .capOut => 0x0C
  | .status => 0x10
  | .cmd => 0x14
  | .arg => 0x18
  | .res0 => 0x1C
  | .res1 => 0x20
  | .res2 => 0x24
  | .res3 => 0x28
  | .alphaK => 0x2C
  | .pqCount => 0x30
  | .nodeCount => 0x34
  | .root => 0x38
  | .outLen => 0x3C
  | .totalW => 0x40
  | .reserved => 0x44

/-- The content of a register (R21 to R37): what a read with BUSY = 0 returns (R53). CMD and the reserved offsets read 0. -/
def regContent (s : State) : Reg → Word
  | .id => 0x48554643#32
  | .version => 0x00010000#32
  | .capSyms => zext32 s.params.maxSyms
  | .capOut => zext32 s.params.outCap
  | .status => statusWord s
  | .cmd => 0#32
  | .arg => s.arg
  | .res0 => s.res0
  | .res1 => s.res1
  | .res2 => s.res2
  | .res3 => s.res3
  | .alphaK => zext32 s.k
  | .pqCount => zext32 s.pqCount
  | .nodeCount => zext32 s.nodeCount
  | .root => s.root
  | .outLen => zext32 s.outLen
  | .totalW => s.totalW
  | .reserved => 0#32

/-- The registers a command in flight may be updating: reading one while BUSY = 1 returns an unspecified value (R57). -/
def unspecifiedWhileBusy : Reg → Bool
  | .res0 => true
  | .res1 => true
  | .res2 => true
  | .res3 => true
  | .alphaK => true
  | .pqCount => true
  | .nodeCount => true
  | .root => true
  | .outLen => true
  | .totalW => true
  | .id => false
  | .version => false
  | .capSyms => false
  | .capOut => false
  | .status => false
  | .cmd => false
  | .arg => false
  | .reserved => false

/-- Whether a read of the register is a draw in this state (R57). -/
def readIsDraw (s : State) (r : Reg) : Bool := s.busy && unspecifiedWhileBusy r

/-- The value MemRead returns (R53, R57). -/
def readValue (s : State) (r : Reg) : Word := if readIsDraw s r then Config.freeRead s.env.draws else regContent s r

/-- A read changes no state of the instance (R53); a draw moves the model's own counter on, so that each one is fresh (U8). -/
def afterRead (s : State) (r : Reg) : State :=
  if readIsDraw s r then { s with env := { s.env with draws := s.env.draws + 1 } } else s

/-- MemWrite (R22, R54, R56): only CMD and ARG take a write, and neither while BUSY = 1, when it is discarded and sets
OVERRUN. -/
def writeReg (r : Reg) (v : Word) (s : State) : State :=
  match r with
  | .cmd => if s.busy then { s with overrun := true } else { s with pending := some v }
  | .arg => if s.busy then { s with overrun := true } else { s with arg := v }
  | .id => s
  | .version => s
  | .capSyms => s
  | .capOut => s
  | .status => s
  | .res0 => s
  | .res1 => s
  | .res2 => s
  | .res3 => s
  | .alphaK => s
  | .pqCount => s
  | .nodeCount => s
  | .root => s
  | .outLen => s
  | .totalW => s
  | .reserved => s

/-- The bytes a platform bridge lays a register's content out in, lowest address first (R52). -/
def registerBytes (s : State) (r : Reg) : List Byte := bytesOfWord (regContent s r)

end Sys2Proof.Machine
end

