-- ==== Sys2Proof/Machine/HostBus.lean ====
section
/-! DEFINITION. One operation of the host, or a reset, on the instance (20_memory.md R50 to R58; 30_encoding.md R78;
70_reset_and_hazards.md R230). -/

namespace Sys2Proof.Machine

/-- The byte address of an offset in the host's address space (R50). -/
def hostAddress (p : Params) (off : Nat) : Nat := p.huffBase + off

/-- Why R51 refuses an access, if it does. -/
def accessRefusal (p : Params) (addr bytes : Nat) : Option Refusal :=
  if accessWidthOk bytes = false then some .accessWidth
  else if accessInWindow p addr = false then some .accessOutsideWindow
  else if accessAligned p addr = false then some .accessMisaligned
  else none

/-- The offset of an address in the window (R50). -/
def windowOffset (p : Params) (addr : Nat) : Nat := addr - p.huffBase

/-- Adding what a read left behind to the trace (R78, R240). -/
def record (t : List TraceEntry) (s : State) : State := { s with env := { s.env with trace := s.env.trace ++ t } }

/-- The next operation of the host program is done (R58). -/
def popOp (s : State) : State := { s with env := { s.env with ops := s.env.ops.tail } }

/-- A read of STATUS that returns BUSY = 0 confirms to the host that every command it wrote has completed (R240). -/
def noteRead (r : Reg) (s : State) : State :=
  if r = .status ∧ s.busy = false then { s with env := { s.env with unconfirmed := false } } else s

/-- A write to CMD, latched or discarded, is one the host has no confirmation of yet (R240; log entry 20). -/
def noteWrite (r : Reg) (s : State) : State :=
  if r = .cmd then { s with env := { s.env with unconfirmed := true } } else s

/-- A read of the register at an offset, its value recorded (R53, R78). -/
def hostRead (off : Nat) (s : State) : State :=
  record [.read off (readValue s (regAt off))] (noteRead (regAt off) (afterRead s (regAt off)))

/-- A poll of a `wait`: a read of STATUS, told apart in the trace from the program's own reads (R78, R240; log entry 11). STATUS
has its content in every state (R57), so a poll is no draw. -/
def hostPoll (s : State) : State := record [.poll (regContent s .status)] (noteRead .status s)

/-- `check`: a read, and a test failure recorded when the value is not the wanted one (R78). -/
def hostCheck (off : Nat) (wanted : Word) (s : State) : State :=
  let got := readValue s (regAt off)
  if got = wanted then hostRead off s else record [.checkFailed off wanted got] (hostRead off s)

/-- One host operation. A `wait` stays at the head of the program while the STATUS it reads has BUSY = 1 (R78; log entry
11). A reset gives every piece of the instance's state its reset value, a command in flight being abandoned (R203, R230). -/
def hostStep (op : HostOp) (s : State) : Result :=
  match op with
  | .read addr bytes =>
    match accessRefusal s.params addr bytes with
    | some r => .refused r
    | none => .next (popOp (hostRead (windowOffset s.params addr) s))
  | .write addr bytes v =>
    match accessRefusal s.params addr bytes with
    | some r => .refused r
    | none =>
      .next (popOp (noteWrite (regAt (windowOffset s.params addr)) (writeReg (regAt (windowOffset s.params addr)) v s)))
  | .check addr bytes v =>
    match accessRefusal s.params addr bytes with
    | some r => .refused r
    | none => .next (popOp (hostCheck (windowOffset s.params addr) v s))
  | .wait => if s.busy then .next (hostPoll s) else .next (popOp (hostPoll s))
  | .reset => .next (popOp (State.atReset s.params s.env))

end Sys2Proof.Machine
end

