-- ==== Sys2Proof/Machine/Step.lean ====
section
/-! DEFINITION. One step of the instance and its host (20_memory.md R55, R58). -/

namespace Sys2Proof.Machine

/-- One step: the core executes the pending command, or the host's next operation takes effect. With no command in flight
and no operation left the instance is idle and keeps all its state (R226). -/
def step (s : State) : Host.Outcome State Fault Refusal :=
  match mover s with
  | .core =>
    match s.pending with
    | some w => executeWord w (takeTurn s)
    | none => .next s
  | .host =>
    match s.env.ops with
    | op :: _ => hostStep op (takeTurn s)
    | [] => .next s

/-- The command word `w` latched in `pending`, where the core takes its next command from (R27, R54), and the core's turn
next, so that the very next step executes it (log entry 6). -/
def State.withFetchWord (s : State) (nbits w : Nat) : State :=
  { s with pending := some (tableWord nbits w), env := { s.env with turns := .core :: s.env.turns } }

end Sys2Proof.Machine
end

