-- ==== Sys2Proof/Machine/HuffAsm.lean ====
section
/-! DEFINITION. HUFFASM, the host's assembly: its operations, their expansion into bus operations, and its text
(30_encoding.md R78 to R80). -/

namespace Sys2Proof.Machine

/-- One HUFFASM operation (R78, R79). -/
inductive AsmOp where
  /-- `write REG, v`; the register by its byte offset. -/
  | write (off : Nat) (v : Word)
  /-- `read REG`. -/
  | read (off : Nat)
  /-- `wait`. -/
  | wait
  /-- `check REG, v`. -/
  | check (off : Nat) (v : Word)
  /-- `.cmd w`: a raw command word, legal or not. -/
  | cmd (w : Word)
  /-- A command pseudo-instruction, with the value of its ARG operand when it has one. -/
  | command (i : Instr) (arg : Option Word)
  /-- `LOAD_FREQS "t"`. -/
  | loadFreqs (t : List Symbol)
  /-- `ENCODE_STR "t"`. -/
  | encodeStr (t : List Symbol)
  /-- `BUILD`. -/
  | build
  deriving DecidableEq, Repr

/-- MemWrite(off, 4, v) on the host's bus (R50). -/
def busWrite (p : Params) (r : Reg) (v : Word) : HostOp := .write (hostAddress p (regOffset r)) 4 v

/-- A command pseudo-instruction: "writing ARG first when the command has an ARG operand and always ending with `wait`"
(R79). -/
def commandOps (p : Params) (i : Instr) (arg : Option Word) : List HostOp :=
  (match arg with
   | some a => [busWrite p .arg a]
   | none => []) ++ [busWrite p .cmd (encode i), .wait]

/-- The distinct symbols of a string, in order of first occurrence (R79). -/
def firstOccurrences (t : List Symbol) : List Symbol :=
  t.foldl (fun seen c => if seen.contains c then seen else seen ++ [c]) []

/-- The expansion of one operation into primitive bus operations (R79, R80). DESIGN CHOICE (log entry 21): LOAD_FREQS of a
string in which a symbol occurs 2^32 times or more, for which R79 gives no expansion, writes the count modulo 2^32. DESIGN
CHOICE (log entry 22): `check`, which R80's list does not name, stays an operation of its own with the value it wants; the read
it makes on the bus is R80's (R, offset). -/
def expandOp (p : Params) : AsmOp → List HostOp
  | .write off v => [.write (hostAddress p off) 4 v]
  | .read off => [.read (hostAddress p off) 4]
  | .wait => [.wait]
  | .check off v => [.check (hostAddress p off) 4 v]
  | .cmd w => [busWrite p .cmd w]
  | .command i arg => commandOps p i arg
  | .loadFreqs t => (firstOccurrences t).flatMap (fun c => commandOps p (.ftAdd c) (some (zext32 (t.count c))))
  | .encodeStr t => t.flatMap (fun c => commandOps p (.encode c) none)
  | .build => commandOps p .treeBuild none ++ commandOps p .codesBuild none

/-- The encoding of a host program: the list of its primitive bus operations (R80). -/
def expandProgram (p : Params) (prog : List AsmOp) : List HostOp := prog.flatMap (expandOp p)

/-- What a HUFFASM line is made of. -/
inductive AsmToken where
  | word (cs : List Char)
  | text (cs : List Char)
  | char (c : Char)
  | comma
  deriving DecidableEq, Repr

/-- Where the reader of a line stands. -/
inductive LexState where
  | blank
  | word (seen : List Char)
  | text (seen : List Char)
  | charOpen
  | charSeen (c : Char)
  deriving DecidableEq, Repr

/-- The tokens of one line; `;` starts a comment (R78). None for an unclosed literal. DESIGN CHOICE (log entry 13): inside a
string or character literal `;` is data and starts no comment, and a literal has no escapes, so a backslash stands for itself.
Space and tab are the only blanks, so a carriage return outside a literal or comment belongs to a word and makes the line no HUFFASM. -/
def lexLine : LexState → List Char → Option (List AsmToken)
  | .blank, [] => some []
  | .blank, c :: cs =>
    if c = ';' then some []
    else if c = ' ' ∨ c = '\t' then lexLine .blank cs
    else if c = ',' then (lexLine .blank cs).map (.comma :: ·)
    else if c = '"' then lexLine (.text []) cs
    else if c = '\'' then lexLine .charOpen cs
    else lexLine (.word [c]) cs
  | .word seen, [] => some [.word seen.reverse]
  | .word seen, c :: cs =>
    if c = ';' then some [.word seen.reverse]
    else if c = ' ' ∨ c = '\t' then (lexLine .blank cs).map (.word seen.reverse :: ·)
    else if c = ',' then (lexLine .blank cs).map (fun ts => .word seen.reverse :: .comma :: ts)
    else lexLine (.word (c :: seen)) cs
  | .text _, [] => none
  | .text seen, c :: cs =>
    if c = '"' then (lexLine .blank cs).map (.text seen.reverse :: ·) else lexLine (.text (c :: seen)) cs
  | .charOpen, [] => none
  | .charOpen, c :: cs => lexLine (.charSeen c) cs
  | .charSeen _, [] => none
  | .charSeen c, d :: cs => if d = '\'' then (lexLine .blank cs).map (.char c :: ·) else none

/-- A digit's value in a base of at most 16. -/
def digitValue (base : Nat) (c : Char) : Option Nat :=
  let v := if '0' ≤ c ∧ c ≤ '9' then c.toNat - 48
    else if 'a' ≤ c ∧ c ≤ 'f' then c.toNat - 87
    else if 'A' ≤ c ∧ c ≤ 'F' then c.toNat - 55
    else 16
  if v < base then some v else none

/-- The number a run of digits writes, `_` being a separator (R9). DESIGN CHOICE (log entry 13): a separator may stand anywhere
among the digits, doubled or at their end, and a run of separators alone writes 0. -/
def digitsValue (base : Nat) : Nat → List Char → Option Nat
  | acc, [] => some acc
  | acc, c :: cs =>
    if c = '_' then digitsValue base acc cs
    else
      match digitValue base c with
      | some d => digitsValue base (acc * base + d) cs
      | none => none

/-- "Numbers are decimal or `0x` hexadecimal" (R78). DESIGN CHOICE (log entry 13): after `0x` the digits may begin with a
separator, so `0x_` is 0; a decimal number may not, and the separator is allowed in it too. -/
def numberValue (cs : List Char) : Option Nat :=
  match cs with
  | [] => none
  | ['0', 'x'] => none
  | '0' :: 'x' :: ds => digitsValue 16 0 ds
  | c :: ds => if c = '_' then none else digitsValue 10 0 (c :: ds)

/-- A 32-bit number operand (R78). -/
def wordOperand : AsmToken → Option Word
  | .word cs =>
    match numberValue cs with
    | some n => if n ≤ maxWord then some (BitVec.ofNat 32 n) else none
    | none => none
  | .text _ => none
  | .char _ => none
  | .comma => none

/-- The symbol of a character: its Unicode code point, when that is a 16-bit number (R78, G2). -/
def symbolOfChar (c : Char) : Option Symbol := if c.toNat ≤ 0xFFFF then some (BitVec.ofNat 16 c.toNat) else none

/-- A symbol operand: "a number 0..0xFFFF or a character literal" (R78). -/
def symbolOperand : AsmToken → Option Symbol
  | .word cs =>
    match numberValue cs with
    | some n => if n ≤ 0xFFFF then some (BitVec.ofNat 16 n) else none
    | none => none
  | .char c => symbolOfChar c
  | .text _ => none
  | .comma => none

/-- The symbols of a string literal (R78, R79). -/
def textOperand : AsmToken → Option (List Symbol)
  | .text cs => cs.mapM symbolOfChar
  | .word _ => none
  | .char _ => none
  | .comma => none

/-- The register names of R21. -/
def registerNames : List (List Char × Reg) :=
  [("ID".toList, .id), ("VERSION".toList, .version), ("CAP_SYMS".toList, .capSyms), ("CAP_OUT".toList, .capOut),
   ("STATUS".toList, .status), ("CMD".toList, .cmd), ("ARG".toList, .arg), ("RES0".toList, .res0),
   ("RES1".toList, .res1), ("RES2".toList, .res2), ("RES3".toList, .res3), ("ALPHA_K".toList, .alphaK)] ++
  [("PQ_COUNT".toList, .pqCount), ("NODE_COUNT".toList, .nodeCount), ("ROOT".toList, .root),
   ("OUT_LEN".toList, .outLen), ("TOTAL_W".toList, .totalW)]

/-- A register operand: a name of R21, or the raw offset of a slot of the window. -/
def registerOperand : AsmToken → Option Nat
  | .word cs =>
    match registerNames.lookup cs with
    | some r => some (regOffset r)
    | none => numberValue cs
  | .text _ => none
  | .char _ => none
  | .comma => none

/-- The pseudo-instructions without an operand (R79). -/
def plainCommands : List (List Char × Instr) :=
  [("NOP".toList, .nop), ("CLEAR".toList, .clear), ("ERR_ACK".toList, .errAck), ("OUT_CLEAR".toList, .outClear),
   ("TREE_INIT".toList, .treeInit), ("TREE_STEP".toList, .treeStep), ("TREE_FINISH".toList, .treeFinish),
   ("TREE_BUILD".toList, .treeBuild), ("PQ_PEEK".toList, .pqPeek), ("CODES_BUILD".toList, .codesBuild)]

/-- The pseudo-instructions with an ARG operand and no symbol (R79). -/
def indexCommands : List (List Char × Instr) :=
  [("FT_READ".toList, .ftRead), ("NODE_READ".toList, .nodeRead), ("HEAP_READ".toList, .heapRead),
   ("OUT_READ".toList, .outRead)]

/-- A line without operands. -/
def parsePlain (m : List Char) : Option AsmOp :=
  if m = "wait".toList then some .wait
  else if m = "BUILD".toList then some .build
  else (plainCommands.lookup m).map (fun i => .command i none)

/-- A line with one operand. -/
def parseUnary (m : List Char) (a : AsmToken) : Option AsmOp :=
  if m = "read".toList then (registerOperand a).map .read
  else if m = ".cmd".toList then (wordOperand a).map .cmd
  else if m = "CODE_LEN".toList then (symbolOperand a).map (fun s => .command (.codeLen s) none)
  else if m = "ENCODE".toList then (symbolOperand a).map (fun s => .command (.encode s) none)
  else if m = "LOAD_FREQS".toList then (textOperand a).map .loadFreqs
  else if m = "ENCODE_STR".toList then (textOperand a).map .encodeStr
  else
    match indexCommands.lookup m with
    | some i => (wordOperand a).map (fun w => .command i (some w))
    | none => none

/-- A line with two operands. -/
def parseBinary (m : List Char) (a b : AsmToken) : Option AsmOp :=
  match wordOperand b with
  | none => none
  | some w =>
    if m = "write".toList then (registerOperand a).map (fun off => .write off w)
    else if m = "check".toList then (registerOperand a).map (fun off => .check off w)
    else if m = "FT_ADD".toList then (symbolOperand a).map (fun s => .command (.ftAdd s) (some w))
    else if m = "CODE_WORD".toList then (symbolOperand a).map (fun s => .command (.codeWord s) (some w))
    else none

/-- One line of HUFFASM: at most one operation (R78). None for a line that is no HUFFASM. -/
def parseLine (cs : List Char) : Option (List AsmOp) :=
  match lexLine .blank cs with
  | none => none
  | some [] => some []
  | some [.word m] => (parsePlain m).map ([·])
  | some [.word m, a] => (parseUnary m a).map ([·])
  | some [.word m, a, .comma, b] => (parseBinary m a b).map ([·])
  | some _ => none

/-- The lines of a text. DESIGN CHOICE (log entry 13): the newline alone ends a line; R78 says only "one operation per line". -/
def splitLines : List Char → List (List Char)
  | [] => [[]]
  | c :: cs =>
    match splitLines cs with
    | [] => [[]]
    | l :: ls => if c = '\n' then [] :: l :: ls else (c :: l) :: ls

/-- A HUFFASM text: "One operation per line" (R78). -/
def parseProgram (cs : List Char) : Option (List AsmOp) := ((splitLines cs).mapM parseLine).map List.flatten

end Sys2Proof.Machine
end

