-- ==== Sys2Proof/Safety.lean ====
section
/-! DEFINITION. The terms claims are stated in: what a well-formed state is (10_state.md R39, with R30 to R37 and R136), what a
code table is (43_code_table.md R155), what commands may report and write (R28, R202), and which host programs are safe (R51,
R234). -/

namespace Sys2Proof.Machine

/-! ### The tree builder's data -/

/-- The heap property (R100): no entry is lighter than its parent. -/
def HeapProperty (key : Word → Word) (h : List Word) : Prop :=
  ∀ i, 0 < i → i < h.length → (key (heapAt h (heapParent i))).toNat ≤ (key (heapAt h i)).toNat

/-- The node indices a node owns as its children (R130). -/
def childIndices : Node → List Nat
  | .leaf _ _ => []
  | .internal _ l r => [l.toNat, r.toNat]

/-- A node at index i at or above k is an internal node over two earlier nodes, of their exact sum (R32, R130, R132). -/
def InternalOk (nodes : List Node) (i : Nat) : Node → Prop
  | .leaf _ _ => False
  | .internal w l r =>
    l.toNat < i ∧ r.toNat < i ∧ w.toNat = (weightOf nodes l).toNat + (weightOf nodes r).toNat

/-- The arena is a forest over the frequency table with the given roots: leaf i from slot i, the internal nodes above them
(R130), and every node either a root or the child of exactly one node, once ("no sharing, no cycles", R32). -/
structure Forest (ft : List FtEntry) (nodes : List Node) (roots : List Word) : Prop where
  leaves    : nodes.take ft.length = leafNodes ft
  internals : ∀ i nd, ft.length ≤ i → nodes[i]? = some nd → InternalOk nodes i nd
  owned     : (roots.map BitVec.toNat ++ nodes.flatMap childIndices).Perm (List.range nodes.length)

/-- The node reached from n by a path, left on 0 and right on 1 (R151); none where the path leaves the tree. -/
def descend (nodes : List Node) : Word → BitString → Option Word
  | n, [] => some n
  | n, b :: p =>
    match nodes[n.toNat]? with
    | some (.internal _ l r) => descend nodes (if b then r else l) p
    | some (.leaf _ _) => none
    | none => none

/-- Each slot's code is the path from the root to its leaf (R150, R151). -/
def CodesValid (s : State) : Prop :=
  s.code.length = s.k ∧ ∀ i, i < s.k → (descend s.nodes s.root (codeAt s i)).map BitVec.toNat = some i

/-- The tree of phases TREE and CODED (R39). -/
structure TreeDone (s : State) : Prop where
  alphabet  : 1 ≤ s.k
  nodeCount : s.nodeCount = 2 * s.k - 1
  queue     : s.heap = []
  root      : s.root.toNat = 2 * s.k - 2
  forest    : Forest s.ft s.nodes [s.root]

/-- The queue and the nodes of phase QUEUED (R39). -/
structure Queued (s : State) : Prop where
  alphabet  : 1 ≤ s.k
  leaves    : s.k ≤ s.nodeCount
  queue     : 1 ≤ s.pqCount
  counts    : s.nodeCount + s.pqCount = 2 * s.k
  root      : s.root = noNode
  ordered   : HeapProperty (weightOf s.nodes) s.heap
  forest    : Forest s.ft s.nodes s.heap

/-- The state of phase LOADING (R39). -/
structure Loading (s : State) : Prop where
  nodes : s.nodes = []
  heap  : s.heap = []
  root  : s.root = noNode

/-- What R39 says of the state in its phase. -/
def PhaseOk (s : State) : Prop :=
  match s.phase with
  | .loading => Loading s ∧ s.code = [] ∧ s.out = []
  | .queued => Queued s ∧ s.code = [] ∧ s.out = []
  | .tree => TreeDone s ∧ s.code = [] ∧ s.out = []
  | .coded => TreeDone s ∧ CodesValid s

/-- The invariant of the instance: the parameters are legal (R7), the frequency table keeps R30's invariants and its sum
(R31), the output fits (R39), an error last reported has set STICKY (R26), and the phase's part of R39 holds. -/
structure State.Inv (s : State) : Prop where
  legal    : s.params.legal = true
  capacity : s.k ≤ s.params.maxSyms
  positive : ∀ e ∈ s.ft, 1 ≤ e.freq.toNat
  unique   : (s.ft.map FtEntry.sym).Nodup
  total    : s.totalW.toNat = (s.ft.map (fun e => e.freq.toNat)).sum
  outFits  : s.outLen ≤ s.params.outCap
  noted    : s.last = .ok ∨ s.sticky = true
  phaseOk  : PhaseOk s

/-! ### Codes -/

/-- No code is a prefix of a different code in the same table (R155). -/
def PrefixFree (codes : List BitString) : Prop :=
  ∀ (i j : Nat) (p q : BitString), codes[i]? = some p → codes[j]? = some q → i ≠ j → ¬ p <+: q

/-- The weighted code length: sum over slots of FT[i].freq * len(CODE[i]) (R136, R173). -/
def codeCost (ft : List FtEntry) (codes : List BitString) : Nat :=
  ((ft.zip codes).map (fun x => x.1.freq.toNat * x.2.length)).sum

/-! ### Commands -/

/-- A command that fails leaves this state behind (R204, R205). -/
def aborted (c : Code) (s : State) : State := { s with last := c, sticky := true, pending := none }

/-- A command that succeeds leaves its writes, and this (R204). -/
def completed (s : State) : State := { s with last := .ok, pending := none }

/-- The error codes a command can report, beyond ILLEGAL_COMMAND, which its word reports before it is decoded (R202). -/
def errorsOf : Instr → List Code
  | .nop => []
  | .clear => []
  | .errAck => []
  | .outClear => []
  | .outRead => []
  | .ftAdd _ => [.sequence, .zeroFrequency, .duplicateSymbol, .alphabetFull, .weightOverflow]
  | .ftRead => [.indexRange]
  | .nodeRead => [.indexRange]
  | .heapRead => [.indexRange]
  | .treeInit => [.sequence, .emptyAlphabet]
  | .treeBuild => [.sequence, .emptyAlphabet]
  | .treeStep => [.sequence, .emptyQueue]
  | .treeFinish => [.sequence, .emptyQueue]
  | .pqPeek => [.emptyQueue]
  | .codesBuild => [.sequence]
  | .codeLen _ => [.sequence, .missingCode]
  | .codeWord _ => [.sequence, .missingCode]
  | .encode _ => [.sequence, .missingCode, .outputOverflow]

/-- How many of RES0, RES1, ... a successful command writes, from RES0 on (R28 and each query's rule). -/
def resultWords : Instr → Nat
  | .pqPeek => 2
  | .heapRead => 2
  | .ftRead => 2
  | .nodeRead => 4
  | .codeLen _ => 2
  | .codeWord _ => 1
  | .outRead => 1
  | .nop => 0
  | .clear => 0
  | .errAck => 0
  | .outClear => 0
  | .ftAdd _ => 0
  | .treeInit => 0
  | .treeStep => 0
  | .treeFinish => 0
  | .treeBuild => 0
  | .codesBuild => 0
  | .encode _ => 0

/-- The commands of a list, one after another, each on the state the one before left. -/
def runCommands : List Instr → State → Result
  | [], s => .next s
  | i :: is, s =>
    match exec i s with
    | .next t => runCommands is t
    | .fault f => .fault f
    | .refused r => .refused r

/-- n steps of the instance and its host, stopping at a refusal. -/
def runSteps : Nat → State → Result
  | 0, s => .next s
  | n + 1, s =>
    match step s with
    | .next t => runSteps n t
    | .fault f => .fault f
    | .refused r => .refused r

/-! ### Host programs -/

/-- Every access still to come is one HUFFCORE defines (R51). -/
def HostProgramOk (s : State) : Prop := ∀ op ∈ s.env.ops, op.wellFormed s.params = true

/-- A write to the CMD register. -/
def isCommandWrite (p : Params) : HostOp → Bool
  | .write addr bytes _ => (accessRefusal p addr bytes).isNone && decide (windowOffset p addr = 0x14)
  | .read _ _ => false
  | .check _ _ _ => false
  | .wait => false
  | .reset => false

/-- The program keeps the busy hazard rule in HUFFASM's way: a `wait` follows every CMD write (R79, R234). -/
def waitsAfterCommands (p : Params) : List HostOp → Bool
  | [] => true
  | op :: rest => (!isCommandWrite p op || rest.head? == some .wait) && waitsAfterCommands p rest

/-- The run of the host program has ended (R240): the host has performed its last operation, and a read of STATUS has returned
BUSY = 0 after its last write to CMD, if it made one. -/
def runEnded (s : State) : Prop := s.env.ops = [] ∧ s.env.unconfirmed = false

/-- A poll of a `wait` that found the core busy (BUSY, bit 0 of STATUS, is 1). How often a `wait` repeats its read is a matter
of how long the run took, of which R240 does not speak (log entry 11). -/
def isBusyPoll : TraceEntry → Bool
  | .poll v => v.getLsbD 0
  | .read _ _ => false
  | .checkFailed _ _ _ => false

/-- The observed result of a run (R240): the values its `read` operations returned, every one of them, and the state at the end.
Only the repeated polls of a `wait`, and the schedule, are left out. -/
def outcomeOfRun (s : State) : State :=
  { s with env := { s.env with turns := [], trace := s.env.trace.filter (fun e => !isBusyPoll e) } }

end Sys2Proof.Machine
end

