-- ==== Sys2Proof/Certificates/Slice0/Obligations.lean ====
section
/-! DEFINITION. The statements for the provers, from the numbered rules of spec/. A successful command's next state is
written as a record update of the state before, so that every field it does not name is unchanged: that is its frame. -/

open Sys2Proof Sys2Proof.Machine

/-! ### Encoding -/

/-- Decode and encode agree: the word of every instruction, whatever its symbol, decodes to it, and so do its bytes as a
little-endian bridge lays them out, with the bytes after them left over (R70, R71, R73, R74, R77; byte order R52). -/
def Obligations.DecodeOfEncodeIsTheInstruction : Prop :=
  ∀ (i : Instr) (rest : List Byte),
    decodeWord (encode i) = .ok i ∧ decodeBytes (encodeBytes i ++ rest) = .ok (i, rest)

/-- Each legal word has one meaning and one spelling: a word that decodes is the word its instruction encodes to, so no bit of
it is ignored (R73: the rows are disjoint; R76: the reserved fields are zero). -/
def Obligations.EncodeOfDecodeIsTheWord : Prop :=
  ∀ (w : Word) (i : Instr), decodeWord w = .ok i → encode i = w

/-- Exactly the words of R75 and R76 are illegal: a reserved opcode, a non-zero RSV field, or a non-zero SYM field on a
command without a symbol operand. -/
def Obligations.IllegalWordsAreTheReservedOnes : Prop :=
  ∀ (w : Word) (opc rsv sym : Nat), w.toNat = opc * 2 ^ 24 + rsv * 2 ^ 16 + sym → opc < 2 ^ 8 → rsv < 2 ^ 8 → sym < 2 ^ 16 →
    ((∃ c, decodeWord w = .error c) ↔
      ((0x04 ≤ opc ∧ opc ≤ 0x0F) ∨ (0x12 ≤ opc ∧ opc ≤ 0x1F) ∨ (0x25 ≤ opc ∧ opc ≤ 0x27) ∨ (0x2A ≤ opc ∧ opc ≤ 0x2F) ∨
        (0x33 ≤ opc ∧ opc ≤ 0x3F) ∨ 0x42 ≤ opc) ∨
      rsv ≠ 0 ∨
      (opc ≠ 0x10 ∧ opc ≠ 0x31 ∧ opc ≠ 0x32 ∧ opc ≠ 0x40 ∧ sym ≠ 0))

/-- Words written out from R70 and R73 (the vectors V-ENC-1, 3, 4, 6, 7, 9, 10, 11) decode as the spec says. -/
def Obligations.WordsOfTheSpecDecode : Prop :=
  decodeTableWord 32 0x00000000 = some .nop ∧ decodeTableWord 32 0x00010000 = none ∧
  decodeTableWord 32 0x10000041 = some (.ftAdd 0x0041#16) ∧ decodeTableWord 32 0x10FF0041 = none ∧
  decodeTableWord 32 0x04000000 = none ∧ decodeTableWord 32 0x41000001 = none ∧
  decodeTableWord 32 0x32000044 = some (.codeWord 0x0044#16) ∧ decodeTableWord 32 0x23000000 = some .treeBuild

/-! ### The step -/

/-- When a command word is pending, it is the core's move and the word decodes to i, a step is exec of i on that state with
one scheduling choice used up (R55, R74). The environment is the model's own (log entries 3 and 6). -/
def Obligations.StepRunsTheDecodedCommand : Prop :=
  ∀ (s : State) (w : Word) (i : Instr), s.pending = some w → mover s = .core → decodeWord w = .ok i →
    step s = exec i { s with env := { s.env with turns := s.env.turns.tail } }

/-- A command word placed in the pending register runs on the very next step, whatever the state (R27, R55). -/
def Obligations.LatchedWordRunsNext : Prop :=
  ∀ (s : State) (i : Instr),
    step (s.withFetchWord 32 (encode i).toNat) = exec i { s with pending := some (encode i) }

/-- R206: a word that decodes to IllegalCommand completes with ILLEGAL_COMMAND (0x10), and nothing of the instance's state but
the completion state changes. -/
def Obligations.IllegalCommandChangesOnlyCompletion : Prop :=
  codeByte .illegalCommand = 0x10#8 ∧
  ∀ (s : State) (w : Word) (c : IllegalCause), s.pending = some w → mover s = .core → decodeWord w = .error c →
    ∃ t, step s = .next t ∧ { t with env := s.env } = aborted .illegalCommand s

/-- R239: BUSY always returns to 0, unless the host's program is refused first. The bound is the length of the schedule, the
model's form of weak fairness (log entry 3). -/
def Obligations.BusyAlwaysEnds : Prop :=
  ∀ s : State, s.busy = true → ∃ n, n ≤ s.env.turns.length + 1 ∧
    ((∃ t, runSteps n s = .next t ∧ t.busy = false) ∨ ∃ r, runSteps n s = .refused r)

/-- U18, R55, R226: with a command in flight and an operation to come either agent may move next, as the schedule says; with no
command in flight the core does not move. (The schedule is the model's form of the choice, log entry 3.) -/
def Obligations.EitherAgentMayMoveWhileBusy : Prop :=
  ∀ s : State,
    (s.busy = true → s.env.ops ≠ [] → ∀ a : Agent, ∀ ts, mover { s with env := { s.env with turns := a :: ts } } = a) ∧
    (s.busy = true → (s.env.ops = [] ∨ s.env.turns = []) → mover s = .core) ∧
    (s.busy = false → mover s = .host)

/-! ### Rules over all commands -/

/-- R200, R204, R28: every command, in every state, completes; it leaves no command in flight, never writes ARG, and OVERRUN
only where it is ERR_ACK. The configuration and the environment are untouched. -/
def Obligations.EveryCommandCompletes : Prop :=
  ∀ (i : Instr) (s : State), ∃ t : State, exec i s = .next t ∧ t.pending = none ∧ t.arg = s.arg ∧ t.params = s.params ∧
    t.env = s.env ∧ (i ≠ .errAck → t.overrun = s.overrun)

/-- R205: a command that reports an error leaves everything else exactly as it was. -/
def Obligations.FailedCommandChangesNothingElse : Prop :=
  ∀ (i : Instr) (s t : State), exec i s = .next t → t.last ≠ .ok →
    t = { s with last := t.last, sticky := true, pending := none }

/-- R202: the error codes each command can report. In particular TREE_BUILD never reports EMPTY_QUEUE (R209). -/
def Obligations.ErrorCodesOfEachCommand : Prop :=
  ∀ (i : Instr) (s t : State), exec i s = .next t → t.last ≠ .ok → t.last ∈ errorsOf i

/-- R204, R182: STICKY is set by every error, cleared by ERR_ACK alone, and otherwise kept. -/
def Obligations.StickyRecordsErrors : Prop :=
  ∀ (i : Instr) (s t : State), exec i s = .next t →
    t.sticky = (if t.last ≠ .ok then true else if i = .errAck then false else s.sticky)

/-- R28: RES is written only by a successful query, and only the words its rule names. -/
def Obligations.ResultsOnlyFromSuccessfulQueries : Prop :=
  ∀ (i : Instr) (s t : State), exec i s = .next t →
    ((resultWords i < 1 ∨ t.last ≠ .ok) → t.res0 = s.res0) ∧
    ((resultWords i < 2 ∨ t.last ≠ .ok) → t.res1 = s.res1) ∧
    ((resultWords i < 3 ∨ t.last ≠ .ok) → t.res2 = s.res2) ∧
    ((resultWords i < 4 ∨ t.last ≠ .ok) → t.res3 = s.res3)

/-- R29: the phase changes only at the successful completion of the five commands it names. -/
def Obligations.PhaseTransitions : Prop :=
  ∀ (i : Instr) (s t : State), exec i s = .next t → t.phase ≠ s.phase →
    t.last = .ok ∧
    ((i = .treeInit ∧ s.phase = .loading ∧ t.phase = .queued) ∨
     (i = .treeFinish ∧ s.phase = .queued ∧ t.phase = .tree) ∨
     (i = .treeBuild ∧ s.phase = .loading ∧ t.phase = .tree) ∨
     (i = .codesBuild ∧ s.phase = .tree ∧ t.phase = .coded) ∨
     (i = .clear ∧ t.phase = .loading))

/-- R29, R30, R120, R152, R170: what is built is written only by its own commands in their phase; CLEAR discards it. -/
def Obligations.StorageWrittenOnlyByItsCommands : Prop :=
  ∀ (i : Instr) (s t : State), exec i s = .next t → i ≠ .clear →
    ((t.ft ≠ s.ft ∨ t.totalW ≠ s.totalW) → (∃ sym, i = .ftAdd sym) ∧ s.phase = .loading) ∧
    (t.nodes ≠ s.nodes → ((i = .treeInit ∨ i = .treeBuild) ∧ s.phase = .loading) ∨ (i = .treeStep ∧ s.phase = .queued)) ∧
    (t.heap ≠ s.heap → ((i = .treeInit ∨ i = .treeBuild) ∧ s.phase = .loading) ∨
      ((i = .treeStep ∨ i = .treeFinish) ∧ s.phase = .queued)) ∧
    (t.root ≠ s.root → (i = .treeBuild ∧ s.phase = .loading) ∨ (i = .treeFinish ∧ s.phase = .queued)) ∧
    (t.code ≠ s.code → i = .codesBuild ∧ s.phase = .tree) ∧
    (t.out ≠ s.out → i = .outClear ∨ ((∃ sym, i = .encode sym) ∧ s.phase = .coded))

/-! ### Control commands -/

/-- R180, R181, R182, R172: NOP, CLEAR, ERR_ACK and OUT_CLEAR in every state: their whole effect, and what STATUS reads
afterwards (bit 1 STICKY, bit 2 OVERRUN, bits [5:4] PHASE). -/
def Obligations.ControlCommands : Prop :=
  ∀ s : State,
    (exec .nop s = .next (completed s) ∧ statusWord (completed s) = statusWord s &&& 0x36#32) ∧
    (∃ t, exec .clear s = .next t ∧ statusWord t = statusWord s &&& 0x06#32 ∧
      t = { completed s with
        ft := [], totalW := 0#32, nodes := [], heap := [], root := 0xFFFFFFFF#32, code := [], out := [], phase := .loading }) ∧
    (∃ t, exec .errAck s = .next t ∧ statusWord t = statusWord s &&& 0x30#32 ∧
      t = { completed s with sticky := false, overrun := false }) ∧
    (∃ t, exec .outClear s = .next t ∧ statusWord t = statusWord s &&& 0x36#32 ∧ t = { completed s with out := [] })

/-! ### Frequency table -/

/-- R122: where its five checks pass, FT_ADD appends the entry (SYM, ARG) and adds ARG to totalW, without wrapping. -/
def Obligations.FtAddAppendsTheEntry : Prop :=
  ∀ (s : State) (sym : Symbol), s.phase = .loading → s.arg ≠ 0#32 → (∀ e ∈ s.ft, e.sym ≠ sym) → s.k ≠ s.params.maxSyms →
    s.totalW.toNat + s.arg.toNat ≤ 0xFFFFFFFF →
    ∃ w : Word, w.toNat = s.totalW.toNat + s.arg.toNat ∧
      exec (.ftAdd sym) s = .next { completed s with ft := s.ft ++ [{ sym := sym, freq := s.arg }], totalW := w }

/-- R122, R202, R203, R211 to R214: FT_ADD reports the first of its checks that fails, in their order. -/
def Obligations.FtAddChecksInOrder : Prop :=
  ∀ (s : State) (sym : Symbol),
    (s.phase ≠ .loading → exec (.ftAdd sym) s = .next (aborted .sequence s)) ∧
    (s.phase = .loading → s.arg = 0#32 → exec (.ftAdd sym) s = .next (aborted .zeroFrequency s)) ∧
    (s.phase = .loading → s.arg ≠ 0#32 → (∃ e ∈ s.ft, e.sym = sym) →
      exec (.ftAdd sym) s = .next (aborted .duplicateSymbol s)) ∧
    (s.phase = .loading → s.arg ≠ 0#32 → (∀ e ∈ s.ft, e.sym ≠ sym) → s.k = s.params.maxSyms →
      exec (.ftAdd sym) s = .next (aborted .alphabetFull s)) ∧
    (s.phase = .loading → s.arg ≠ 0#32 → (∀ e ∈ s.ft, e.sym ≠ sym) → s.k ≠ s.params.maxSyms →
      0xFFFFFFFF < s.totalW.toNat + s.arg.toNat → exec (.ftAdd sym) s = .next (aborted .weightOverflow s))

/-- R123: FT_READ of a valid slot gives the frequency in RES0 and the zero-extended symbol in RES1, in every phase. -/
def Obligations.FtReadReturnsTheEntry : Prop :=
  ∀ (s : State) (e : FtEntry), s.ft[s.arg.toNat]? = some e →
    ∃ w : Word, w.toNat = e.sym.toNat ∧ exec .ftRead s = .next { completed s with res0 := e.freq, res1 := w }

/-- R216: INDEX_RANGE (0x17) is reported exactly by FT_READ with ARG >= k, NODE_READ with ARG >= nodeCount and HEAP_READ with
ARG >= pqCount, and then nothing else changes. -/
def Obligations.IndexRangeExactlyPastTheCount : Prop :=
  codeByte .indexRange = 0x17#8 ∧
  ∀ s : State,
    (exec .ftRead s = .next (aborted .indexRange s) ↔ s.k ≤ s.arg.toNat) ∧
    (exec .nodeRead s = .next (aborted .indexRange s) ↔ s.nodeCount ≤ s.arg.toNat) ∧
    (exec .heapRead s = .next (aborted .indexRange s) ↔ s.pqCount ≤ s.arg.toNat) ∧
    ∀ (i : Instr) (t : State), exec i s = .next t → t.last = .indexRange → i = .ftRead ∨ i = .nodeRead ∨ i = .heapRead

/-- R121, R155: in a well-formed state Lookup finds exactly the loaded symbols, each at its own slot. -/
def Obligations.LookupFindsExactlyTheLoadedSymbols : Prop :=
  ∀ (s : State) (sym : Symbol) (i : Nat), s.Inv → (lookup s.ft sym = some i ↔ (s.ft[i]?).map FtEntry.sym = some sym)

/-! ### Tree builder -/

/-- R131: TREE_INIT makes leaf i of slot i and enqueues the leaves 0, 1, ..., k-1 one at a time; the queue then holds each
leaf once, in heap order. -/
def Obligations.TreeInitQueuesTheLeaves : Prop :=
  ∀ s : State, s.phase = .loading → 1 ≤ s.k → s.k ≤ 65536 →
    let nodes := s.ft.map (fun e => Node.leaf e.sym e.freq)
    let heap := (List.range s.k).foldl (fun h i => heapEnqueue (weightOf nodes) h (BitVec.ofNat 32 i)) []
    exec .treeInit s = .next { completed s with nodes := nodes, heap := heap, phase := .queued } ∧
    (heap.map BitVec.toNat).Perm (List.range s.k) ∧ HeapProperty (weightOf nodes) heap

/-- R131, R105: with all weights equal no sift-up moves, and TREE_INIT leaves HEAP = [0, 1, ..., k-1]. -/
def Obligations.TreeInitOfEqualWeightsKeepsSlotOrder : Prop :=
  ∀ (s : State) (f : Word), s.phase = .loading → 1 ≤ s.k → s.k ≤ 65536 → (∀ e ∈ s.ft, e.freq = f) →
    exec .treeInit s = .next { completed s with
      nodes := s.ft.map (fun e => Node.leaf e.sym e.freq), heap := (List.range s.k).map (BitVec.ofNat 32), phase := .queued }

/-- R132: TREE_STEP in a well-formed state takes the two lightest nodes out of the queue, the first dequeued as left child,
and enqueues a new internal node of their exact sum; all else is kept. Which nodes a Dequeue takes and where an Enqueue puts
one is said by QueueOperationsFollowTheirLoops. -/
def Obligations.TreeStepMergesTheTwoLightest : Prop :=
  ∀ s : State, s.Inv → s.phase = .queued → 2 ≤ s.pqCount →
    ∃ (a b : Word) (h1 h2 : List Word),
      let nodes := s.nodes ++ [Node.internal (weightOf s.nodes a + weightOf s.nodes b) a b]
      let heap := heapEnqueue (weightOf nodes) h2 (BitVec.ofNat 32 s.nodeCount)
      heapDequeue (weightOf s.nodes) s.heap = some (a, h1) ∧ heapDequeue (weightOf s.nodes) h1 = some (b, h2) ∧
      s.heap.Perm (a :: b :: h2) ∧
      (weightOf s.nodes a).toNat ≤ (weightOf s.nodes b).toNat ∧
      (∀ c ∈ h2, (weightOf s.nodes b).toNat ≤ (weightOf s.nodes c).toNat) ∧
      (weightOf s.nodes a + weightOf s.nodes b).toNat = (weightOf s.nodes a).toNat + (weightOf s.nodes b).toNat ∧
      heap.Perm (BitVec.ofNat 32 s.nodeCount :: h2) ∧
      exec .treeStep s = .next { completed s with nodes := nodes, heap := heap }

/-- R133, R137: TREE_FINISH with one node queued makes it the root and empties the queue; in a well-formed state that node is
2k - 2. -/
def Obligations.TreeFinishSetsTheRoot : Prop :=
  ∀ (s : State) (r : Word), s.phase = .queued → s.heap = [r] →
    exec .treeFinish s = .next { completed s with root := r, heap := [], phase := .tree } ∧
    (s.Inv → r.toNat = 2 * s.k - 2)

/-- R131 to R134, R152, R202: when the builder's commands fail, and with which code. -/
def Obligations.BuilderChecks : Prop :=
  ∀ s : State,
    (s.phase ≠ .loading → exec .treeInit s = .next (aborted .sequence s) ∧ exec .treeBuild s = .next (aborted .sequence s)) ∧
    (s.phase = .loading → s.k = 0 →
      exec .treeInit s = .next (aborted .emptyAlphabet s) ∧ exec .treeBuild s = .next (aborted .emptyAlphabet s)) ∧
    (s.phase ≠ .queued → exec .treeStep s = .next (aborted .sequence s) ∧ exec .treeFinish s = .next (aborted .sequence s)) ∧
    (s.phase = .queued → s.pqCount < 2 → exec .treeStep s = .next (aborted .emptyQueue s)) ∧
    (s.phase = .queued → s.pqCount = 0 → exec .treeFinish s = .next (aborted .emptyQueue s)) ∧
    (s.phase = .queued → 2 ≤ s.pqCount → exec .treeFinish s = .next (aborted .sequence s)) ∧
    (s.phase ≠ .tree → exec .codesBuild s = .next (aborted .sequence s))

/-- R134: TREE_BUILD is TREE_INIT, then k - 1 times TREE_STEP, then TREE_FINISH, in every state in which it succeeds. -/
def Obligations.TreeBuildIsItsSteps : Prop :=
  ∀ s : State, s.phase = .loading → 1 ≤ s.k →
    exec .treeBuild s = runCommands (.treeInit :: (List.replicate (s.k - 1) .treeStep ++ [.treeFinish])) s

/-- R134, R136, R137: TREE_BUILD of a non-empty well-formed table completes with 2k - 1 nodes, a strict binary tree over the
table's leaves whose root 2k - 2 weighs totalW, and an empty queue; all else is kept. -/
def Obligations.TreeBuildBuildsTheTree : Prop :=
  ∀ s : State, s.Inv → s.phase = .loading → 1 ≤ s.k →
    ∃ (nodes : List Node) (root : Word), root.toNat = 2 * s.k - 2 ∧ nodes.length = 2 * s.k - 1 ∧
      Forest s.ft nodes [root] ∧ weightOf nodes root = s.totalW ∧
      exec .treeBuild s = .next { completed s with nodes := nodes, root := root, heap := [], phase := .tree }

/-- R135: NODE_READ of a leaf and of an internal node. -/
def Obligations.NodeReadReturnsTheNode : Prop :=
  ∀ s : State,
    (∀ (sym : Symbol) (w : Word), s.nodes[s.arg.toNat]? = some (.leaf sym w) →
      ∃ tag : Word, tag.toNat = sym.toNat * 2 ^ 16 + 1 ∧
        exec .nodeRead s = .next { completed s with res0 := w, res1 := tag, res2 := 0xFFFFFFFF#32, res3 := 0xFFFFFFFF#32 }) ∧
    (∀ w l r : Word, s.nodes[s.arg.toNat]? = some (.internal w l r) →
      exec .nodeRead s = .next { completed s with res0 := w, res1 := 0#32, res2 := l, res3 := r })

/-! ### Priority queue -/

/-- R107, R103, R100: PQ_PEEK of a non-empty queue returns its first entry and that node's weight, the least in the queue of a
well-formed state; of an empty queue it reports EMPTY_QUEUE. -/
def Obligations.PqPeekReturnsTheMinimum : Prop :=
  ∀ s : State,
    (∀ (n : Word) (rest : List Word), s.heap = n :: rest →
      exec .pqPeek s = .next { completed s with res0 := n, res1 := weightOf s.nodes n } ∧
      (s.Inv → ∀ c ∈ rest, (weightOf s.nodes n).toNat ≤ (weightOf s.nodes c).toNat)) ∧
    (s.heap = [] → exec .pqPeek s = .next (aborted .emptyQueue s))

/-- R108: HEAP_READ of a valid position returns its entry and that node's weight; position 0 is what PQ_PEEK returns. -/
def Obligations.HeapReadReturnsTheEntry : Prop :=
  ∀ (s : State) (n : Word), s.heap[s.arg.toNat]? = some n →
    exec .heapRead s = .next { completed s with res0 := n, res1 := weightOf s.nodes n } ∧
    (s.arg = 0#32 → exec .heapRead s = exec .pqPeek s)

/-- R101, R102, R105: Enqueue and Dequeue are the spec's loops, at every position and without the model's fuel. Enqueue puts
the new entry last and moves it above its parent only when strictly lighter. Dequeue takes the first entry, puts the last in
its place and moves it below the lighter child, of two of equal weight the left one, only when that child is strictly
lighter. -/
def Obligations.QueueOperationsFollowTheirLoops : Prop :=
  ∀ key : Word → Word,
    (∀ (h : List Word) (n : Word), heapEnqueue key h n = siftUp key (h ++ [n]).length (h ++ [n]) h.length) ∧
    (∀ (h : List Word) (i : Nat), i < h.length →
      siftUp key h.length h i =
        if 0 < i ∧ (key (heapAt h i)).toNat < (key (heapAt h ((i - 1) / 2))).toNat then
          siftUp key h.length (heapSwap h i ((i - 1) / 2)) ((i - 1) / 2)
        else h) ∧
    heapDequeue key [] = none ∧ (∀ x : Word, heapDequeue key [x] = some (x, [])) ∧
    (∀ (x y : Word) (mid : List Word),
      heapDequeue key (x :: (mid ++ [y])) = some (x, siftDown key (y :: mid).length (y :: mid) 0)) ∧
    (∀ (h : List Word) (i : Nat),
      let c := if 2 * i + 2 < h.length ∧ (key (heapAt h (2 * i + 2))).toNat < (key (heapAt h (2 * i + 1))).toNat
        then 2 * i + 2 else 2 * i + 1
      siftDown key h.length h i =
        if 2 * i + 1 < h.length ∧ (key (heapAt h c)).toNat < (key (heapAt h i)).toNat then
          siftDown key h.length (heapSwap h i c) c
        else h)

/-! ### Code table -/

/-- R151, R152: CODES_BUILD in a well-formed state writes, for every slot, the path from the root to its leaf; the tree is
only read. -/
def Obligations.CodesBuildWritesThePaths : Prop :=
  ∀ s : State, s.Inv → s.phase = .tree →
    ∃ code : List BitString, exec .codesBuild s = .next { completed s with code := code, phase := .coded } ∧
      code.length = s.k ∧
      ∀ (i : Nat) (p : BitString), code[i]? = some p → (descend s.nodes s.root p).map BitVec.toNat = some i

/-- R153, R154, R65, R202: CODE_LEN returns a loaded symbol's code length and slot, CODE_WORD the 32 code bits from 32 * ARG
on, 0 past the end, for every ARG. -/
def Obligations.CodeQueriesReturnTheCode : Prop :=
  ∀ (s : State) (sym : Symbol) (i : Nat) (p : BitString), s.Inv → s.phase = .coded →
    (s.ft[i]?).map FtEntry.sym = some sym → s.code[i]? = some p →
    (∃ len slot : Word, len.toNat = p.length ∧ slot.toNat = i ∧
      exec (.codeLen sym) s = .next { completed s with res0 := len, res1 := slot }) ∧
    (∃ w : Word, (∀ b, b < 32 → w.getLsbD b = (p[32 * s.arg.toNat + b]?).getD false) ∧
      exec (.codeWord sym) s = .next { completed s with res0 := w })

/-- R153, R154, R170, R202, R210: outside phase CODED the code commands report SEQUENCE; in it a symbol that is not loaded is
MISSING_CODE, before any check of the output's room. -/
def Obligations.MissingCodeChecks : Prop :=
  ∀ (s : State) (sym : Symbol),
    (s.phase ≠ .coded → exec (.codeLen sym) s = .next (aborted .sequence s) ∧
      exec (.codeWord sym) s = .next (aborted .sequence s) ∧ exec (.encode sym) s = .next (aborted .sequence s)) ∧
    (s.phase = .coded → (∀ e ∈ s.ft, e.sym ≠ sym) → exec (.codeLen sym) s = .next (aborted .missingCode s) ∧
      exec (.codeWord sym) s = .next (aborted .missingCode s) ∧ exec (.encode sym) s = .next (aborted .missingCode s))

/-! ### Encoder -/

/-- R170, R215: ENCODE of a loaded symbol appends its code when it fits, an exact fill included, and otherwise reports
OUTPUT_OVERFLOW and appends nothing. -/
def Obligations.EncodeAppendsTheCode : Prop :=
  ∀ (s : State) (sym : Symbol) (i : Nat) (p : BitString), s.Inv → s.phase = .coded →
    (s.ft[i]?).map FtEntry.sym = some sym → s.code[i]? = some p →
    (s.outLen + p.length ≤ s.params.outCap → exec (.encode sym) s = .next { completed s with out := s.out ++ p }) ∧
    (s.params.outCap < s.outLen + p.length → exec (.encode sym) s = .next (aborted .outputOverflow s))

/-- R171, R65: OUT_READ returns the 32 output bits from 32 * ARG on, 0 at or past outLen, in every state and for every ARG. -/
def Obligations.OutReadReturnsThePackedBits : Prop :=
  ∀ s : State, ∃ w : Word, (∀ b, b < 32 → w.getLsbD b = (s.out[32 * s.arg.toNat + b]?).getD false) ∧
    exec .outRead s = .next { completed s with res0 := w }

/-- R173: encoding a sequence of loaded symbols that fits appends their codes in order, so outLen grows by the sum of their
lengths. -/
def Obligations.EncodingASequenceAppendsItsCodes : Prop :=
  ∀ (t : List Symbol) (s : State), s.phase = .coded → (∀ c ∈ t, ∃ e ∈ s.ft, e.sym = c) →
    let codeOf := fun c => codeAt s ((lookup s.ft c).getD 0)
    s.outLen + (t.map (fun c => (codeOf c).length)).sum ≤ s.params.outCap →
    ∃ u : State, runCommands (t.map .encode) s = .next u ∧ u.out = s.out ++ t.flatMap codeOf ∧
      u.outLen = s.outLen + (t.map (fun c => (codeOf c).length)).sum ∧ u.code = s.code ∧ u.ft = s.ft ∧ u.phase = .coded

/-- R173: encoding the sequence the frequencies were counted from takes sum over slots of FT[i].freq * len(CODE[i]) bits. -/
def Obligations.OutputLengthIsTheCost : Prop :=
  ∀ (t : List Symbol) (s : State), s.Inv → s.phase = .coded → s.out = [] → (∀ c ∈ t, ∃ e ∈ s.ft, e.sym = c) →
    (∀ e ∈ s.ft, t.count e.sym = e.freq.toNat) → codeCost s.ft s.code ≤ s.params.outCap →
    ∃ u : State, runCommands (t.map .encode) s = .next u ∧ u.outLen = codeCost s.ft s.code

/-- R138, R156: with one symbol loaded the queue starts and ends with one element, TREE_STEP fails with EMPTY_QUEUE, the root
is leaf 0, the code is empty, and ENCODE appends nothing and succeeds. -/
def Obligations.OneSymbolAlphabet : Prop :=
  ∀ (s : State) (e : FtEntry), s.phase = .loading → s.ft = [e] → s.outLen ≤ s.params.outCap →
    (∃ t, exec .treeInit s = .next t ∧ t.heap = [0#32] ∧ exec .treeStep t = .next (aborted .emptyQueue t)) ∧
    (∃ u, runCommands [.treeBuild, .codesBuild, .encode e.sym] s = .next u ∧ u.nodes = [.leaf e.sym e.freq] ∧
      u.root = 0#32 ∧ u.heap = [] ∧ u.code = [[]] ∧ u.out = s.out ∧ u.phase = .coded ∧ u.last = .ok)

/-! ### The register window -/

/-- R24, R25: VERSION, CAP_SYMS and CAP_OUT read their constants in every state, a command in flight or not. -/
def Obligations.ConstantRegistersRead : Prop :=
  ∀ (s : State) (rest : List HostOp) (off : Nat) (v : Word), mover s = .host →
    ((off = 0x04 ∧ v = 0x00010000#32) ∨ (off = 0x08 ∧ v.toNat = s.params.maxSyms) ∨
      (off = 0x0C ∧ v.toNat = s.params.outCap)) →
    s.env.ops = .read (s.params.huffBase + off) 4 :: rest →
    ∃ t, step s = .next t ∧ t.env.ops = rest ∧ t.env.trace = s.env.trace ++ [.read off v]

/-- R21 to R37, R53: what a read returns at each offset of the window, where R57 makes it no draw: with BUSY = 0 at every
offset, and with BUSY = 1 outside 0x1C to 0x40. A count is its number, and CMD and the reserved offsets read 0. -/
def Obligations.RegisterMapReads : Prop :=
  ∀ (s : State) (rest : List HostOp) (off : Nat) (v : Word), mover s = .host →
    s.env.ops = .read (s.params.huffBase + off) 4 :: rest → (s.busy = false ∨ off < 0x1C ∨ 0x40 < off) →
    ((off = 0x00 ∧ v = 0x48554643#32) ∨ (off = 0x04 ∧ v = 0x00010000#32) ∨ (off = 0x08 ∧ v.toNat = s.params.maxSyms) ∨
      (off = 0x0C ∧ v.toNat = s.params.outCap) ∨ (off = 0x10 ∧ v = statusWord s) ∨ (off = 0x14 ∧ v = 0#32) ∨
      (off = 0x18 ∧ v = s.arg) ∨ (off = 0x1C ∧ v = s.res0) ∨ (off = 0x20 ∧ v = s.res1) ∨ (off = 0x24 ∧ v = s.res2) ∨
      (off = 0x28 ∧ v = s.res3) ∨ (off = 0x2C ∧ v.toNat = s.ft.length) ∨ (off = 0x30 ∧ v.toNat = s.heap.length) ∨
      (off = 0x34 ∧ v.toNat = s.nodes.length) ∨ (off = 0x38 ∧ v = s.root) ∨ (off = 0x3C ∧ v.toNat = s.out.length) ∨
      (off = 0x40 ∧ v = s.totalW) ∨ (0x44 ≤ off ∧ off ≤ 0x7C ∧ off % 4 = 0 ∧ v = 0#32)) →
    ∃ t, step s = .next t ∧ t.env.ops = rest ∧ t.env.trace = s.env.trace ++ [.read off v]

/-- R26, R29, R201: STATUS read as a number: BUSY at 1, STICKY at 2, OVERRUN at 4, PHASE at 16, LAST at 256, all other bits
0, with the four numbers of the phases and the twelve of the completion codes. -/
def Obligations.StatusFields : Prop :=
  ∀ s : State, (statusWord s).toNat = s.busy.toNat + 2 * s.sticky.toNat + 4 * s.overrun.toNat +
    16 * (match s.phase with | .loading => 0 | .queued => 1 | .tree => 2 | .coded => 3) +
    256 * (match s.last with
      | .ok => 0x00 | .emptyAlphabet => 0x01 | .emptyQueue => 0x02 | .missingCode => 0x03 | .illegalCommand => 0x10
      | .sequence => 0x11 | .zeroFrequency => 0x12 | .duplicateSymbol => 0x13 | .alphabetFull => 0x14
      | .weightOverflow => 0x15 | .outputOverflow => 0x16 | .indexRange => 0x17)

/-- R54: with BUSY = 0 a write to CMD latches the word and sets BUSY, a write to ARG stores it, and a write to any other
offset of the window has no effect (R22). (env is the model's own: the program goes on, and a CMD write is noted, log entries
6 and 20.) -/
def Obligations.WritesWhileIdle : Prop :=
  ∀ (s : State) (rest : List HostOp) (off : Nat) (v : Word), s.pending = none → off < 0x80 → off % 4 = 0 →
    s.env.ops = .write (s.params.huffBase + off) 4 v :: rest →
    step s = .next
      (if off = 0x14 then { s with pending := some v, env := { s.env with ops := rest, unconfirmed := true } }
       else if off = 0x18 then { s with arg := v, env := { s.env with ops := rest } }
       else { s with env := { s.env with ops := rest } })

/-- R56: with BUSY = 1 a write to CMD or ARG is discarded and sets OVERRUN; a write to any other offset has no effect; the
command in flight, and the ARG it reads, are unaffected. -/
def Obligations.WritesWhileBusy : Prop :=
  ∀ (s : State) (rest : List HostOp) (off : Nat) (v : Word), s.busy = true → mover s = .host → off < 0x80 → off % 4 = 0 →
    s.env.ops = .write (s.params.huffBase + off) 4 v :: rest →
    ∃ t, step s = .next t ∧ t.env.ops = rest ∧ t.env.trace = s.env.trace ∧
      { t with env := s.env } = { s with overrun := if off = 0x14 ∨ off = 0x18 then true else s.overrun }

/-- R53, R22: a read, a check and a wait change nothing but the host's own environment; with BUSY = 0 a read returns the
register's content. -/
def Obligations.ReadsHaveNoSideEffect : Prop :=
  ∀ (s t : State) (op : HostOp) (rest : List HostOp), mover s = .host → s.env.ops = op :: rest →
    (op = .wait ∨ (∃ a b, op = .read a b) ∨ ∃ a b v, op = .check a b v) → step s = .next t →
    { t with env := s.env } = s ∧
    (s.busy = false → ∀ off, op = .read (s.params.huffBase + off) 4 →
      t.env.trace = s.env.trace ++ [.read off (regContent s (regAt off))])

/-- R57: with BUSY = 1 a read of RES0..RES3, ALPHA_K, PQ_COUNT, NODE_COUNT, ROOT, OUT_LEN or TOTAL_W (offsets 0x1C to 0x40)
returns a fresh free value, and a read of any other offset its content. -/
def Obligations.ReadsWhileBusy : Prop :=
  ∀ (s : State) (rest : List HostOp) (off : Nat), s.busy = true → mover s = .host → off < 0x80 → off % 4 = 0 →
    s.env.ops = .read (s.params.huffBase + off) 4 :: rest →
    ∃ t, step s = .next t ∧ t.env.ops = rest ∧
      (0x1C ≤ off ∧ off ≤ 0x40 →
        t.env.trace = s.env.trace ++ [.read off (Config.freeRead s.env.draws)] ∧ t.env.draws = s.env.draws + 1) ∧
      (off < 0x1C ∨ 0x40 < off →
        t.env.trace = s.env.trace ++ [.read off (regContent s (regAt off))] ∧ t.env.draws = s.env.draws)

/-- R51: a step is refused exactly when the host moves and its next access is of another width than 32 bits, misaligned, or
outside the window. -/
def Obligations.RefusedExactlyWhenIllFormed : Prop :=
  ∀ s : State, (∃ r, step s = .refused r) ↔
    mover s = .host ∧ ∃ op rest, s.env.ops = op :: rest ∧ op.wellFormed s.params = false

/-- R51, R239: a program of defined accesses is never refused: every step answers a next state and the rest of the program
stays so. -/
def Obligations.DefinedProgramNeverStops : Prop :=
  ∀ s : State, HostProgramOk s → ∃ t, step s = .next t ∧ HostProgramOk t

/-- R230, R41, R203: a reset gives every host-visible register its reset value, abandons a command in flight, and leaves no
entry of the job behind; the platform's parameters stay. -/
def Obligations.ResetRestoresEverything : Prop :=
  ∀ (s : State) (rest : List HostOp), mover s = .host → s.env.ops = .reset :: rest →
    ∃ t, step s = .next t ∧ t.params = s.params ∧ t.env.ops = rest ∧ t.pending = none ∧
      (∀ r : Reg, r ≠ .id → r ≠ .version → r ≠ .capSyms → r ≠ .capOut → r ≠ .root → regContent t r = 0#32) ∧
      regContent t .root = 0xFFFFFFFF#32 ∧ t.ft = [] ∧ t.nodes = [] ∧ t.heap = [] ∧ t.code = [] ∧ t.out = [] ∧
      t.phase = .loading ∧ t.last = .ok

/-! ### Invariants -/

/-- The state after reset is well formed, with any legal parameters (R39, R41). -/
def Obligations.ResetIsWellFormed : Prop :=
  State.reset.Inv ∧ ∀ (p : Params) (e : HostEnv), p.legal = true → (State.atReset p e).Inv

/-- R39, with R30 to R37: every step from every well-formed state leaves a well-formed state. -/
def Obligations.StepKeepsWellFormed : Prop :=
  ∀ s t : State, s.Inv → step s = .next t → t.Inv

/-- R7, R35, R36, R106, R137: in a well-formed state every count keeps its derived bound, so no array ever overflows, and no
code is longer than k - 1. -/
def Obligations.SizesStayInBounds : Prop :=
  ∀ s : State, s.Inv → s.k ≤ s.params.maxSyms ∧ s.pqCount ≤ s.params.maxSyms ∧ s.nodeCount ≤ 2 * s.params.maxSyms - 1 ∧
    s.outLen ≤ s.params.outCap ∧ (s.phase = .coded → ∀ p ∈ s.code, p.length ≤ s.k - 1 ∧ (2 ≤ s.k → 1 ≤ p.length))

/-- R136, weight conservation: the root's weight is the sum of all frequencies. -/
def Obligations.RootWeighsTheTotal : Prop :=
  ∀ s : State, s.Inv → s.phase = .tree ∨ s.phase = .coded → weightOf s.nodes s.root = s.totalW

/-- R136: every node of a completed tree is reached from the root by exactly one path. -/
def Obligations.EveryNodeReachedOnce : Prop :=
  ∀ s : State, s.Inv → s.phase = .tree ∨ s.phase = .coded →
    ∀ n, n < s.nodeCount → ∃! p : BitString, (descend s.nodes s.root p).map BitVec.toNat = some n

/-- R155: the code table has exactly k entries, Lookup finds exactly the k loaded symbols, which are distinct, and no code is
a prefix of another. -/
def Obligations.CodesArePrefixFree : Prop :=
  ∀ s : State, s.Inv → s.phase = .coded → s.code.length = s.k ∧ PrefixFree s.code ∧ (s.ft.map FtEntry.sym).Nodup ∧
    ∀ sym : Symbol, lookup s.ft sym ≠ none ↔ sym ∈ s.ft.map FtEntry.sym

/-- R136, optimality: the codes TREE_BUILD and CODES_BUILD derive from a table cost no more than any prefix-free table of as
many codes. -/
def Obligations.BuiltCodesAreOptimal : Prop :=
  ∀ s : State, s.Inv → s.phase = .loading → 1 ≤ s.k →
    ∃ t, runCommands [.treeBuild, .codesBuild] s = .next t ∧ t.phase = .coded ∧ t.ft = s.ft ∧
      ∀ codes : List BitString, codes.length = s.k → PrefixFree codes → codeCost s.ft t.code ≤ codeCost s.ft codes

/-! ### Host programs -/

/-- R79, R234: a program of command pseudo-instructions, reads, waits, checks and the composites expands to operations in
which a `wait` follows every CMD write. -/
def Obligations.PseudoInstructionsWait : Prop :=
  ∀ (p : Params) (prog : List AsmOp), (∀ op ∈ prog, (∀ off v, op ≠ .write off v) ∧ ∀ w, op ≠ .cmd w) →
    waitsAfterCommands p (expandProgram p prog) = true

/-- R234, R240, R58, U18: a host program that waits after every command has one outcome: two runs that differ only in when the
core takes its steps end with the same state and the same values read, those of STATUS among them. Only the polls of a `wait`
that found the core busy, and the schedule itself, are left out (log entries 3, 11 and 20 for the model's part in it). -/
def Obligations.WaitingProgramHasOneOutcome : Prop :=
  ∀ (s : State) (turns : List Agent) (m n : Nat) (t u : State),
    s.pending = none → waitsAfterCommands s.params s.env.ops = true →
    runSteps m s = .next t → runEnded t →
    runSteps n { s with env := { s.env with turns := turns } } = .next u → runEnded u →
    outcomeOfRun t = outcomeOfRun u
end

