-- ==== Sys2Proof/Laws/Heap.lean ====
section
/-! SUPPORT. The priority queue's micro-operations (40_priority_queue.md R100 to R105): each keeps the entries, as a
permutation, and the heap property; the first entry of a heap is a lightest one. -/

namespace Sys2Proof.Machine

variable {key : Word → Word} {h : List Word}

/-! ### Positions -/

theorem heapParent_lt {i : Nat} (hi : 0 < i) : heapParent i < i := by unfold heapParent; omega

theorem heapParent_left (i : Nat) : heapParent (heapLeft i) = i := by unfold heapParent heapLeft; omega

theorem heapParent_right (i : Nat) : heapParent (heapRight i) = i := by unfold heapParent heapRight; omega

theorem child_of_parent {i c : Nat} (hc : 0 < c) (h : heapParent c = i) : c = heapLeft i ∨ c = heapRight i := by
  unfold heapParent at h; unfold heapLeft heapRight; omega

/-! ### Cells -/

theorem heapAt_of_lt {i : Nat} (hi : i < h.length) : heapAt h i = h[i] := by
  simp [heapAt, List.getElem?_eq_getElem hi]

theorem heapAt_mem {i : Nat} (hi : i < h.length) : heapAt h i ∈ h := by
  rw [heapAt_of_lt hi]; exact List.getElem_mem hi

@[simp] theorem heapSwap_length (i j : Nat) : (heapSwap h i j).length = h.length := by simp [heapSwap]

/-- What a swap leaves in each cell. -/
theorem heapAt_heapSwap {i j m : Nat} (hi : i < h.length) (hj : j < h.length) :
    heapAt (heapSwap h i j) m = if m = j then heapAt h i else if m = i then heapAt h j else heapAt h m := by
  unfold heapSwap heapAt
  rw [List.getElem?_set, List.getElem?_set]
  split
  · simp_all
  · split <;> simp_all [eq_comm]

theorem heapSwap_perm {i j : Nat} (hi : i < h.length) (hj : j < h.length) : (heapSwap h i j).Perm h := by
  unfold heapSwap
  rw [heapAt_of_lt hi, heapAt_of_lt hj]
  exact List.set_set_perm hi hj

/-! ### Sifting keeps the entries -/

theorem siftUp_perm (key : Word → Word) : ∀ (fuel : Nat) (h : List Word) (i : Nat), i < h.length →
    (siftUp key fuel h i).Perm h
  | 0, _, _, _ => .refl _
  | fuel + 1, h, i, hi => by
    unfold siftUp
    split
    · exact .refl _
    · rename_i h0
      have hp : heapParent i < h.length := Nat.lt_trans (heapParent_lt (Nat.pos_of_ne_zero h0)) hi
      split
      · exact (siftUp_perm key fuel _ _ (by simpa using hp)).trans (heapSwap_perm hi hp)
      · exact .refl _

theorem lighterChild_cases (key : Word → Word) (h : List Word) (i : Nat) :
    lighterChild key h i = heapLeft i ∨ (lighterChild key h i = heapRight i ∧ heapRight i < h.length) := by
  unfold lighterChild; split <;> simp_all

theorem lighterChild_lt {i : Nat} (hl : ¬ h.length ≤ heapLeft i) : lighterChild key h i < h.length := by
  rcases lighterChild_cases key h i with e | ⟨e, hr⟩ <;> omega

theorem lighterChild_pos (i : Nat) : 0 < lighterChild key h i := by
  rcases lighterChild_cases key h i with e | ⟨e, -⟩ <;> rw [e] <;> simp [heapLeft, heapRight]

theorem lighterChild_parent (i : Nat) : heapParent (lighterChild key h i) = i := by
  rcases lighterChild_cases key h i with e | ⟨e, -⟩ <;> rw [e]
  · exact heapParent_left i
  · exact heapParent_right i

/-- The child Dequeue looks at is the lightest child there is. -/
theorem lighterChild_le {i c : Nat} (hc0 : 0 < c) (hc : c < h.length) (hp : heapParent c = i) :
    (key (heapAt h (lighterChild key h i))).toNat ≤ (key (heapAt h c)).toNat := by
  unfold lighterChild
  rcases child_of_parent hc0 hp with rfl | rfl <;> split <;> omega

theorem siftDown_perm (key : Word → Word) : ∀ (fuel : Nat) (h : List Word) (i : Nat), (siftDown key fuel h i).Perm h
  | 0, _, _ => .refl _
  | fuel + 1, h, i => by
    unfold siftDown
    split
    · exact .refl _
    · rename_i hl
      split
      · exact .refl _
      · have hc := lighterChild_lt (key := key) hl
        have hi : i < h.length := by unfold heapLeft at hl; omega
        exact (siftDown_perm key fuel _ _).trans (heapSwap_perm hi hc)

/-! ### Fuel -/

/-- Any fuel from the position on is enough for a sift towards the root. -/
theorem siftUp_fuel (key : Word → Word) : ∀ (f g : Nat) (h : List Word) (i : Nat), i ≤ f → i ≤ g →
    siftUp key f h i = siftUp key g h i
  | 0, 0, _, _, _, _ => rfl
  | 0, g + 1, h, i, hf, _ => by
    obtain rfl : i = 0 := by omega
    simp [siftUp]
  | f + 1, 0, h, i, _, hg => by
    obtain rfl : i = 0 := by omega
    simp [siftUp]
  | f + 1, g + 1, h, i, hf, hg => by
    unfold siftUp
    by_cases h0 : i = 0
    · simp [h0]
    · rw [if_neg h0, if_neg h0, siftUp_fuel key f g _ (heapParent i) (by unfold heapParent; omega) (by unfold heapParent; omega)]

theorem lt_lighterChild (key : Word → Word) (h : List Word) (i : Nat) : i < lighterChild key h i := by
  rcases lighterChild_cases key h i with e | ⟨e, -⟩ <;> rw [e] <;> simp [heapLeft, heapRight] <;> omega

/-- Any fuel that reaches the end is enough for a sift towards the leaves. -/
theorem siftDown_fuel (key : Word → Word) : ∀ (f g : Nat) (h : List Word) (i : Nat), h.length ≤ i + f → h.length ≤ i + g →
    siftDown key f h i = siftDown key g h i
  | 0, 0, _, _, _, _ => rfl
  | 0, g + 1, h, i, hf, _ => by
    have : h.length ≤ heapLeft i := by unfold heapLeft; omega
    simp [siftDown, this]
  | f + 1, 0, h, i, _, hg => by
    have : h.length ≤ heapLeft i := by unfold heapLeft; omega
    simp [siftDown, this]
  | f + 1, g + 1, h, i, hf, hg => by
    unfold siftDown
    have hc := lt_lighterChild key h i
    rw [siftDown_fuel key f g (heapSwap h i (lighterChild key h i)) _ (by simp; omega) (by simp; omega)]

/-! ### Sifting restores the heap property -/

/-- The heap property but for the pair of i and its parent, and i's children are no lighter than i's parent. -/
def HeapButUp (key : Word → Word) (h : List Word) (i : Nat) : Prop :=
  (∀ m, 0 < m → m < h.length → m ≠ i → (key (heapAt h (heapParent m))).toNat ≤ (key (heapAt h m)).toNat) ∧
  (∀ c, 0 < c → c < h.length → heapParent c = i → 0 < i →
    (key (heapAt h (heapParent i))).toNat ≤ (key (heapAt h c)).toNat)

theorem siftUp_heap (key : Word → Word) : ∀ (fuel : Nat) (h : List Word) (i : Nat), i < fuel → i < h.length →
    HeapButUp key h i → HeapProperty key (siftUp key fuel h i)
  | 0, _, _, hf, _, _ => absurd hf (Nat.not_lt_zero _)
  | fuel + 1, h, i, hf, hi, ⟨hall, hkids⟩ => by
    unfold siftUp
    split
    · rename_i h0
      exact fun m hm hml => hall m hm hml (by omega)
    · rename_i h0
      have hpos : 0 < i := Nat.pos_of_ne_zero h0
      have hlt := heapParent_lt hpos
      have hp : heapParent i < h.length := Nat.lt_trans hlt hi
      split
      · rename_i hsw
        refine siftUp_heap key fuel _ _ (by omega) (by simpa using hp) ⟨?_, ?_⟩
        · intro m hm hml hmne
          have hml : m < h.length := by simpa using hml
          have hmp := heapParent_lt hm
          rw [heapAt_heapSwap hi hp, heapAt_heapSwap hi hp]
          by_cases hmi : m = i
          · subst hmi
            simp only [↓reduceIte, hmne]
            omega
          · by_cases hq : heapParent m = heapParent i
            · have := hall m hm hml hmi
              simp only [hq, ↓reduceIte, hmne, hmi]
              rw [hq] at this; omega
            · by_cases hq' : heapParent m = i
              · have := hkids m hm hml hq' hpos
                simp only [hq', hmne, hmi, ↓reduceIte]
                split <;> omega
              · simp only [hq, hq', hmne, hmi, ↓reduceIte]
                exact hall m hm hml hmi
        · intro c hc hcl hcp hpp
          have hcl : c < h.length := by simpa using hcl
          have h1 := hall (heapParent i) hpp hp (by omega)
          have hpplt := heapParent_lt hpp
          rw [heapAt_heapSwap hi hp, heapAt_heapSwap hi hp]
          have e1 : heapParent (heapParent i) ≠ heapParent i := by omega
          have e2 : heapParent (heapParent i) ≠ i := by omega
          have e3 : c ≠ heapParent i := by intro e; have := heapParent_lt hc; omega
          simp only [e1, e2, e3, ↓reduceIte]
          by_cases hci : c = i
          · simp only [hci, ↓reduceIte]; exact h1
          · have := hall c hc hcl hci
            rw [hcp] at this
            simp only [hci, ↓reduceIte]; omega
      · rename_i hns
        intro m hm hml
        by_cases hmi : m = i
        · subst hmi; omega
        · exact hall m hm hml hmi

/-- The heap property but for the pairs of i and its children, which are no lighter than i's parent. -/
def HeapButDown (key : Word → Word) (h : List Word) (i : Nat) : Prop :=
  (∀ m, 0 < m → m < h.length → heapParent m ≠ i → (key (heapAt h (heapParent m))).toNat ≤ (key (heapAt h m)).toNat) ∧
  (∀ c, 0 < c → c < h.length → heapParent c = i → 0 < i →
    (key (heapAt h (heapParent i))).toNat ≤ (key (heapAt h c)).toNat)

theorem siftDown_heap (key : Word → Word) : ∀ (fuel : Nat) (h : List Word) (i : Nat), h.length ≤ fuel + i →
    HeapButDown key h i → HeapProperty key (siftDown key fuel h i)
  | 0, h, i, hf, ⟨hall, _⟩ => fun m hm hml => by
    unfold siftDown at hml ⊢
    refine hall m hm hml ?_
    have := heapParent_lt hm
    unfold heapParent at this ⊢
    omega
  | fuel + 1, h, i, hf, ⟨hall, hkids⟩ => by
    unfold siftDown
    split
    · rename_i hl
      intro m hm hml
      refine hall m hm hml ?_
      intro e
      rcases child_of_parent hm e with rfl | rfl <;> simp only [heapLeft, heapRight] at * <;> omega
    · rename_i hl
      have hc := lighterChild_lt (key := key) hl
      have hcpos := lighterChild_pos (key := key) (h := h) i
      have hcpar := lighterChild_parent (key := key) (h := h) i
      have hic : i < lighterChild key h i := by have := heapParent_lt hcpos; omega
      have hi : i < h.length := by omega
      split
      · rename_i hle
        intro m hm hml
        by_cases hmp : heapParent m = i
        · rw [hmp]; exact Nat.le_trans hle (lighterChild_le hm hml hmp)
        · exact hall m hm hml hmp
      · rename_i hgt
        generalize hcdef : lighterChild key h i = c at *
        have hmin : ∀ m, 0 < m → m < h.length → heapParent m = i →
            (key (heapAt h c)).toNat ≤ (key (heapAt h m)).toNat := by
          intro m hm hml hmp
          rw [← hcdef]; exact lighterChild_le hm hml hmp
        refine siftDown_heap key fuel _ c (by simp; omega) ⟨?_, ?_⟩
        · intro m hm hml hmp
          have hml : m < h.length := by simpa using hml
          have hmlt := heapParent_lt hm
          rw [heapAt_heapSwap hi hc, heapAt_heapSwap hi hc]
          by_cases hmc : m = c
          · subst hmc
            have e : i ≠ m := by omega
            simp only [hcpar, e, ↓reduceIte]; omega
          · by_cases hpi : heapParent m = i
            · have e1 : i ≠ c := by omega
              have e2 : m ≠ i := by omega
              simp only [hpi, e1, hmc, e2, ↓reduceIte]
              exact hmin m hm hml hpi
            · by_cases hmi : m = i
              · subst hmi
                simp only [hmp, hmc, hpi, ↓reduceIte]
                exact hkids c hcpos hc hcpar hm
              · simp only [hmp, hmc, hpi, hmi, ↓reduceIte]
                exact hall m hm hml hpi
        · intro d hd hdl hdp _
          have hdl : d < h.length := by simpa using hdl
          have hdlt := heapParent_lt hd
          rw [heapAt_heapSwap hi hc, heapAt_heapSwap hi hc]
          have e1 : i ≠ c := by omega
          have e2 : d ≠ c := by omega
          have e3 : d ≠ i := by omega
          simp only [hcpar, e1, e2, e3, ↓reduceIte]
          have := hall d hd hdl (by omega)
          rw [hdp] at this; exact this

/-! ### Enqueue, Dequeue and PeekMin -/

/-- Enqueue adds its item and nothing else (R101). -/
theorem heapEnqueue_perm (key : Word → Word) (h : List Word) (n : Word) : (heapEnqueue key h n).Perm (n :: h) :=
  (siftUp_perm key _ _ _ (by simp)).trans (List.perm_append_singleton n h)

@[simp] theorem heapEnqueue_length (key : Word → Word) (h : List Word) (n : Word) :
    (heapEnqueue key h n).length = h.length + 1 := (heapEnqueue_perm key h n).length_eq

/-- A cell of a longer list. -/
theorem heapAt_append {i : Nat} (t : List Word) (hi : i < h.length) : heapAt (h ++ t) i = heapAt h i := by
  simp [heapAt, List.getElem?_append_left hi]

/-- Enqueue keeps the heap property (R100, R101). -/
theorem heapEnqueue_heap (n : Word) (hh : HeapProperty key h) : HeapProperty key (heapEnqueue key h n) := by
  refine siftUp_heap key _ _ _ (by omega) (by simp) ⟨?_, ?_⟩
  · intro m hm hml hne
    have hml : m < h.length := by simp at hml; omega
    rw [heapAt_append _ hml, heapAt_append _ (Nat.lt_trans (heapParent_lt hm) hml)]
    exact hh m hm hml
  · intro c hc hcl hcp _
    have := heapParent_lt hc
    simp at hcl; omega

/-- Everything Dequeue can answer (R102): with an entry, the first one, and the rest of the entries. -/
theorem heapDequeue_some {a : Word} {r : List Word} (hd : heapDequeue key h = some (a, r)) :
    0 < h.length ∧ a = heapAt h 0 ∧ h.Perm (a :: r) := by
  unfold heapDequeue at hd
  split at hd
  · cases hd
  · rename_i hne
    have hlen : 0 < h.length := Nat.pos_of_ne_zero hne
    simp only [Option.some.injEq, Prod.mk.injEq] at hd
    obtain ⟨rfl, rfl⟩ := hd
    refine ⟨hlen, rfl, ?_⟩
    refine List.Perm.trans ?_ ((siftDown_perm key _ _ _).symm.cons _)
    obtain ⟨x, t, rfl⟩ : ∃ x t, h = x :: t := by cases h <;> simp_all
    rcases List.eq_nil_or_concat t with rfl | ⟨t', y, rfl⟩
    · simp [heapAt]
    · have e : heapAt (x :: (t' ++ [y])) (t'.length + 1) = y := by simp [heapAt]
      simp only [List.concat_eq_append, List.length_cons, List.length_append, List.length_nil, Nat.zero_add,
        Nat.add_sub_cancel, List.set_cons_zero, e]
      rw [List.take_succ_cons, List.take_left' rfl]
      have e0 : heapAt (x :: (t' ++ [y])) 0 = x := by simp [heapAt]
      rw [e0]
      exact (List.perm_append_singleton y t').cons x

theorem heapDequeue_isSome (key : Word → Word) (hne : 0 < h.length) : ∃ a r, heapDequeue key h = some (a, r) := by
  unfold heapDequeue
  rw [if_neg (by omega)]
  exact ⟨_, _, rfl⟩

theorem heapDequeue_none : heapDequeue key h = none ↔ h = [] := by
  unfold heapDequeue
  split <;> simp_all

theorem heapDequeue_length {a : Word} {r : List Word} (hd : heapDequeue key h = some (a, r)) :
    h.length = r.length + 1 := (heapDequeue_some hd).2.2.length_eq

/-- Dequeue of a queue of one entry (R102). -/
theorem heapDequeue_singleton (key : Word → Word) (n : Word) : heapDequeue key [n] = some (n, []) := by
  simp [heapDequeue, heapAt, siftDown]

/-- Dequeue keeps the heap property (R100, R102). -/
theorem heapDequeue_heap {a : Word} {r : List Word} (hh : HeapProperty key h) (hd : heapDequeue key h = some (a, r)) :
    HeapProperty key r := by
  unfold heapDequeue at hd
  split at hd
  · cases hd
  · rename_i hne
    simp only [Option.some.injEq, Prod.mk.injEq] at hd
    obtain ⟨-, rfl⟩ := hd
    refine siftDown_heap key _ _ _ (by simp) ⟨?_, ?_⟩
    · intro m hm hml hmp
      have hml : m < h.length - 1 := by simp at hml; omega
      have hlt := heapParent_lt hm
      have cell : ∀ j, 0 < j → j < h.length - 1 →
          heapAt ((h.set 0 (heapAt h (h.length - 1))).take (h.length - 1)) j = heapAt h j := by
        intro j hj hjl
        unfold heapAt
        rw [List.getElem?_take_of_lt hjl, List.getElem?_set_ne (by omega)]
      rw [cell m hm hml, cell _ (by omega) (by omega)]
      exact hh m hm (by omega)
    · intro c _ _ _ h0; omega

/-- The first entry of a heap is a lightest one (R100). -/
theorem heap_first_le (hh : HeapProperty key h) : ∀ i, i < h.length → (key (heapAt h 0)).toNat ≤ (key (heapAt h i)).toNat := by
  intro i
  induction i using Nat.strongRecOn with
  | _ i ih =>
    intro hi
    rcases Nat.eq_zero_or_pos i with rfl | hpos
    · exact Nat.le_refl _
    · exact Nat.le_trans (ih _ (heapParent_lt hpos) (Nat.lt_trans (heapParent_lt hpos) hi)) (hh i hpos hi)

/-- What Dequeue returns is no heavier than anything it leaves (R102). -/
theorem heapDequeue_min {a : Word} {r : List Word} (hh : HeapProperty key h) (hd : heapDequeue key h = some (a, r)) :
    ∀ c ∈ r, (key a).toNat ≤ (key c).toNat := by
  obtain ⟨-, rfl, hp⟩ := heapDequeue_some hd
  intro c hc
  obtain ⟨i, hi, rfl⟩ := List.getElem_of_mem (hp.mem_iff.2 (List.mem_cons_of_mem _ hc))
  rw [← heapAt_of_lt hi]
  exact heap_first_le hh i hi

theorem heapPeekMin_eq : heapPeekMin h = h.head? := by
  cases h <;> simp [heapPeekMin, heapAt]

/-- The heap property only depends on the keys of the entries. -/
theorem HeapProperty.congr {key' : Word → Word} (hh : HeapProperty key h) (hk : ∀ n ∈ h, key' n = key n) :
    HeapProperty key' h := by
  intro i hi hil
  rw [hk _ (heapAt_mem hil), hk _ (heapAt_mem (Nat.lt_trans (heapParent_lt hi) hil))]
  exact hh i hi hil

end Sys2Proof.Machine
end

