-- ==== Sys2Proof/Laws/Forest.lean ====
section
/-! SUPPORT. The node arena as a forest (10_state.md R32; 42_tree_builder.md R130 to R137): how TREE_INIT starts it, how a
merge extends it, and the conservation of weight. -/

namespace Sys2Proof.Machine

variable {ft : List FtEntry} {nodes : List Node} {roots : List Word}

@[simp] theorem leafNodes_length (ft : List FtEntry) : (leafNodes ft).length = ft.length := by simp [leafNodes]

theorem weightOf_of_lt {n : Word} (h : n.toNat < nodes.length) : weightOf nodes n = nodeWeight nodes[n.toNat] := by
  simp [weightOf, List.getElem?_eq_getElem h]

/-- Appending nodes keeps the weights of the old ones. -/
theorem weightOf_append {n : Word} (t : List Node) (h : n.toNat < nodes.length) :
    weightOf (nodes ++ t) n = weightOf nodes n := by
  simp [weightOf, List.getElem?_append_left h]

/-- The weight of the node at an index, exactly. -/
def weightAt (nodes : List Node) (i : Nat) : Nat := (weightOf nodes (BitVec.ofNat 32 i)).toNat

theorem weightOf_toNat_eq (nodes : List Node) (n : Word) : (weightOf nodes n).toNat = weightAt nodes n.toNat := by
  simp [weightAt]

/-! ### What a forest gives -/

theorem Forest.leaf_le (hf : Forest ft nodes roots) : ft.length ≤ nodes.length := by
  have := congrArg List.length hf.leaves
  simp at this; omega

/-- Node i below k is the leaf of slot i (R130). -/
theorem Forest.leaf (hf : Forest ft nodes roots) {i : Nat} (hi : i < ft.length) :
    nodes[i]? = some (.leaf ft[i].sym ft[i].freq) := by
  have h1 : (nodes.take ft.length)[i]? = nodes[i]? := List.getElem?_take_of_lt hi
  rw [← h1, hf.leaves, leafNodes, List.getElem?_map, List.getElem?_eq_getElem hi]; rfl

/-- Node i at or above k is internal (R130). -/
theorem Forest.internal (hf : Forest ft nodes roots) {i : Nat} (hi : ft.length ≤ i) (hil : i < nodes.length) :
    ∃ w l r, nodes[i]? = some (.internal w l r) ∧ l.toNat < i ∧ r.toNat < i ∧
      w.toNat = (weightOf nodes l).toNat + (weightOf nodes r).toNat := by
  have hn := List.getElem?_eq_getElem hil
  have := hf.internals i _ hi hn
  cases hnd : nodes[i] with
  | leaf s w => rw [hnd] at this; exact this.elim
  | internal w l r => rw [hnd] at this hn; exact ⟨w, l, r, hn, this⟩

/-- An internal node stands at or above k, over two earlier nodes of its exact weight (R32, R130). -/
theorem Forest.children (hf : Forest ft nodes roots) {i : Nat} {w l r : Word} (h : nodes[i]? = some (.internal w l r)) :
    ft.length ≤ i ∧ l.toNat < i ∧ r.toNat < i ∧ w.toNat = (weightOf nodes l).toNat + (weightOf nodes r).toNat := by
  have hi : ft.length ≤ i := by
    rcases Nat.lt_or_ge i ft.length with hlt | hge
    · rw [hf.leaf hlt] at h; cases h
    · exact hge
  exact ⟨hi, hf.internals i _ hi h⟩

theorem Forest.root_lt (hf : Forest ft nodes roots) {n : Word} (h : n ∈ roots) : n.toNat < nodes.length := by
  have : n.toNat ∈ List.range nodes.length :=
    hf.owned.mem_iff.1 (List.mem_append_left _ (List.mem_map_of_mem h))
  simpa using this

/-- Only which nodes are roots matters, not their order in the queue. -/
theorem Forest.perm {roots' : List Word} (hf : Forest ft nodes roots) (hp : roots.Perm roots') : Forest ft nodes roots' :=
  { hf with owned := ((hp.symm.map BitVec.toNat).append_right _).trans hf.owned }

/-! ### Starting and extending a forest -/

theorem flatMap_childIndices_leafNodes (ft : List FtEntry) : (leafNodes ft).flatMap childIndices = [] := by
  simp [leafNodes, childIndices]

/-- The leaves TREE_INIT creates are a forest of single nodes (R131). -/
theorem forest_leafNodes (h : (roots.map BitVec.toNat).Perm (List.range ft.length)) : Forest ft (leafNodes ft) roots where
  leaves := by rw [List.take_of_length_le (by simp)]
  internals i nd hi hnd := by
    have := (List.getElem?_eq_some_iff.1 hnd).1
    simp at this; omega
  owned := by rw [flatMap_childIndices_leafNodes, List.append_nil, leafNodes_length]; exact h

/-- Internal nodes stay what they are when nodes are appended. -/
theorem InternalOk.append {i : Nat} {nd : Node} (t : List Node) (h : InternalOk nodes i nd) (hi : i ≤ nodes.length) :
    InternalOk (nodes ++ t) i nd := by
  cases nd with
  | leaf s w => exact h
  | internal w l r =>
    obtain ⟨hl, hr, hw⟩ := h
    refine ⟨hl, hr, ?_⟩
    rw [weightOf_append _ (by omega), weightOf_append _ (by omega)]; exact hw

/-- A merge of two roots (R132): the new node is a root in their place. -/
theorem Forest.merge {a b : Word} {rest : List Word} (hf : Forest ft nodes (a :: b :: rest))
    (hlen : nodes.length < 2 ^ 32) (hw : (weightOf nodes a).toNat + (weightOf nodes b).toNat < 2 ^ 32) :
    Forest ft (nodes ++ [.internal (weightOf nodes a + weightOf nodes b) a b]) (BitVec.ofNat 32 nodes.length :: rest) where
  leaves := by rw [List.take_append_of_le_length hf.leaf_le]; exact hf.leaves
  internals i nd hi hnd := by
    rcases Nat.lt_trichotomy i nodes.length with hlt | rfl | hgt
    · rw [List.getElem?_append_left hlt] at hnd
      exact (hf.internals i nd hi hnd).append _ (Nat.le_of_lt hlt)
    · rw [List.getElem?_append_right (Nat.le_refl _)] at hnd
      simp only [Nat.sub_self, List.getElem?_cons_zero, Option.some.injEq] at hnd
      subst hnd
      have ha := hf.root_lt (n := a) (by simp)
      have hb := hf.root_lt (n := b) (by simp)
      refine ⟨ha, hb, ?_⟩
      rw [weightOf_append _ ha, weightOf_append _ hb, BitVec.toNat_add, Nat.mod_eq_of_lt hw]
    · have := (List.getElem?_eq_some_iff.1 hnd).1
      simp at this; omega
  owned := by
    have h := hf.owned
    simp only [List.map_cons, List.flatMap_append, List.flatMap_cons, List.flatMap_nil, List.append_nil, childIndices,
      List.length_append, List.length_cons, List.length_nil, Nat.zero_add, List.range_succ, BitVec.toNat_ofNat,
      Nat.mod_eq_of_lt hlen, List.cons_append] at h ⊢
    refine List.Perm.trans ?_ ((h.append_right [nodes.length]))
    rw [List.perm_iff_count]
    intro x
    simp only [List.count_cons, List.count_append, List.count_nil]
    omega

/-! ### Conservation of weight -/

theorem sum_weightAt_range (nodes : List Node) (hlen : nodes.length ≤ 2 ^ 32) :
    ((List.range nodes.length).map (weightAt nodes)).sum = (nodes.map (fun nd => (nodeWeight nd).toNat)).sum := by
  congr 1
  apply List.ext_getElem (by simp)
  intro i h1 h2
  have hi : i < nodes.length := by simpa using h1
  have e : (BitVec.ofNat 32 i).toNat = i := by simp; omega
  simp only [List.getElem_map, List.getElem_range, weightAt]
  rw [weightOf_of_lt (by rw [e]; exact hi)]
  simp only [e]

theorem sum_children_leafNodes (nodes : List Node) (ft : List FtEntry) :
    (((leafNodes ft).flatMap childIndices).map (weightAt nodes)).sum = 0 := by
  simp [flatMap_childIndices_leafNodes]

theorem sum_children_internals (nodes : List Node) : ∀ (l : List Node),
    (∀ nd ∈ l, ∃ i, InternalOk nodes i nd) →
    ((l.flatMap childIndices).map (weightAt nodes)).sum = (l.map (fun nd => (nodeWeight nd).toNat)).sum
  | [], _ => rfl
  | nd :: l, h => by
    obtain ⟨i, hi⟩ := h nd (by simp)
    have ih := sum_children_internals nodes l (fun m hm => h m (List.mem_cons_of_mem _ hm))
    rw [List.flatMap_cons, List.map_append, List.sum_append, ih, List.map_cons, List.sum_cons]
    cases nd with
    | leaf s w => exact hi.elim
    | internal w l' r' =>
      simp only [childIndices, List.map_cons, List.map_nil, List.sum_cons, List.sum_nil, nodeWeight]
      rw [hi.2.2, weightOf_toNat_eq, weightOf_toNat_eq]; omega

/-- The roots of a forest weigh together what its leaves do (R136). -/
theorem Forest.weight (hf : Forest ft nodes roots) (hlen : nodes.length ≤ 2 ^ 32) :
    (roots.map (fun n => (weightOf nodes n).toNat)).sum = (ft.map (fun e => e.freq.toNat)).sum := by
  have hall := (hf.owned.map (weightAt nodes)).sum_eq
  rw [List.map_append, List.sum_append, sum_weightAt_range nodes hlen] at hall
  have hsplit : nodes = leafNodes ft ++ nodes.drop ft.length := by
    conv_lhs => rw [← List.take_append_drop ft.length nodes, hf.leaves]
  have hint : ∀ nd ∈ nodes.drop ft.length, ∃ i, InternalOk nodes i nd := by
    intro nd hnd
    obtain ⟨j, hj, rfl⟩ := List.getElem_of_mem hnd
    refine ⟨ft.length + j, hf.internals _ _ (Nat.le_add_right _ _) ?_⟩
    rw [List.getElem_drop]
    exact List.getElem?_eq_getElem _
  have hkids : ((nodes.flatMap childIndices).map (weightAt nodes)).sum
      = ((nodes.drop ft.length).map (fun nd => (nodeWeight nd).toNat)).sum := by
    rw [← sum_children_internals nodes _ hint]
    conv_lhs => rw [hsplit, List.flatMap_append, flatMap_childIndices_leafNodes, List.nil_append]
    rw [← hsplit]
  have hleaf : (nodes.map (fun nd => (nodeWeight nd).toNat)).sum
      = (ft.map (fun e => e.freq.toNat)).sum + ((nodes.drop ft.length).map (fun nd => (nodeWeight nd).toNat)).sum := by
    conv_lhs => rw [hsplit, List.map_append, List.sum_append]
    simp [leafNodes, nodeWeight, Function.comp_def]
  have hroots : (roots.map BitVec.toNat).map (weightAt nodes) = roots.map (fun n => (weightOf nodes n).toNat) := by
    rw [List.map_map]; exact List.map_congr_left (fun n _ => (weightOf_toNat_eq nodes n).symm)
  rw [hroots, hkids, hleaf] at hall
  omega

/-- Two roots together weigh no more than all the leaves, so their merge does not overflow (R132). -/
theorem Forest.two_roots_le {a b : Word} {rest : List Word} (hf : Forest ft nodes (a :: b :: rest))
    (hlen : nodes.length ≤ 2 ^ 32) :
    (weightOf nodes a).toNat + (weightOf nodes b).toNat ≤ (ft.map (fun e => e.freq.toNat)).sum := by
  have := hf.weight hlen
  simp only [List.map_cons, List.sum_cons] at this
  omega

/-! ### Enqueueing the leaves -/

/-- The entries the leaves give the queue, whatever the weights (R131). -/
theorem foldl_enqueue_perm (key : Word → Word) (l : List Nat) (h : List Word) :
    (l.foldl (fun h i => heapEnqueue key h (BitVec.ofNat 32 i)) h).Perm (l.map (BitVec.ofNat 32) ++ h) := by
  induction l generalizing h with
  | nil => exact .refl _
  | cons i l ih =>
    refine (ih _).trans ?_
    rw [List.map_cons, List.cons_append]
    exact ((heapEnqueue_perm key h _).append_left _).trans List.perm_middle

theorem foldl_enqueue_heap (key : Word → Word) (l : List Nat) {h : List Word} (hh : HeapProperty key h) :
    HeapProperty key (l.foldl (fun h i => heapEnqueue key h (BitVec.ofNat 32 i)) h) := by
  induction l generalizing h with
  | nil => exact hh
  | cons i l ih => exact ih (heapEnqueue_heap _ hh)

theorem heapProperty_nil (key : Word → Word) : HeapProperty key [] := fun _ _ h => absurd h (Nat.not_lt_zero _)

/-- The queue after TREE_INIT: each leaf once, in heap order (R131). -/
theorem enqueueLeaves_spec (nodes : List Node) {k : Nat} (hk : k ≤ 2 ^ 32) :
    ((enqueueLeaves nodes k).map BitVec.toNat).Perm (List.range k) ∧ HeapProperty (weightOf nodes) (enqueueLeaves nodes k) := by
  refine ⟨?_, foldl_enqueue_heap _ _ (heapProperty_nil _)⟩
  refine ((foldl_enqueue_perm _ _ []).map BitVec.toNat).trans ?_
  rw [List.append_nil, List.map_map]
  refine List.Perm.of_eq ?_
  conv_rhs => rw [← List.map_id (List.range k)]
  refine List.map_congr_left (fun i hi => ?_)
  have : i < k := by simpa using hi
  simp; omega

@[simp] theorem enqueueLeaves_length (nodes : List Node) (k : Nat) : (enqueueLeaves nodes k).length = k := by
  have := (foldl_enqueue_perm (weightOf nodes) (List.range k) []).length_eq
  simpa [enqueueLeaves] using this

/-! ### Merging -/

/-- The builder's data between merges: a forest whose roots are queued in heap order, with a total that fits 32 bits. -/
structure QueueOk (ft : List FtEntry) (nodes : List Node) (h : List Word) : Prop where
  forest  : Forest ft nodes h
  ordered : HeapProperty (weightOf nodes) h
  counts  : nodes.length + h.length = 2 * ft.length
  small   : ft.length ≤ 2 ^ 16
  total   : (ft.map (fun e => e.freq.toNat)).sum < 2 ^ 32

/-- Everything a merge can answer when two nodes are queued (R132). -/
theorem mergeTwo_spec {h : List Word} (hq : QueueOk ft nodes h) (h2 : 2 ≤ h.length) :
    ∃ (a b : Word) (r1 r2 : List Word),
      heapDequeue (weightOf nodes) h = some (a, r1) ∧ heapDequeue (weightOf nodes) r1 = some (b, r2) ∧
      h.Perm (a :: b :: r2) ∧
      (weightOf nodes a).toNat + (weightOf nodes b).toNat < 2 ^ 32 ∧
      mergeTwo nodes h = some (nodes ++ [.internal (weightOf nodes a + weightOf nodes b) a b],
        heapEnqueue (weightOf (nodes ++ [.internal (weightOf nodes a + weightOf nodes b) a b])) r2
          (BitVec.ofNat 32 nodes.length)) ∧
      QueueOk ft (nodes ++ [.internal (weightOf nodes a + weightOf nodes b) a b])
        (heapEnqueue (weightOf (nodes ++ [.internal (weightOf nodes a + weightOf nodes b) a b])) r2
          (BitVec.ofNat 32 nodes.length)) := by
  obtain ⟨hf, hh, hc, hs, ht⟩ := hq
  obtain ⟨a, r1, e1⟩ := heapDequeue_isSome (weightOf nodes) (h := h) (by omega)
  have l1 := heapDequeue_length e1
  obtain ⟨b, r2, e2⟩ := heapDequeue_isSome (weightOf nodes) (h := r1) (by omega)
  have l2 := heapDequeue_length e2
  have hp : h.Perm (a :: b :: r2) := (heapDequeue_some e1).2.2.trans ((heapDequeue_some e2).2.2.cons a)
  have hf' := hf.perm hp
  have hw : (weightOf nodes a).toNat + (weightOf nodes b).toNat < 2 ^ 32 :=
    Nat.lt_of_le_of_lt (hf'.two_roots_le (by omega)) ht
  refine ⟨a, b, r1, r2, e1, e2, hp, hw, by simp [mergeTwo, e1, e2], ?_, ?_, ?_, hs, ht⟩
  · exact (hf'.merge (by omega) hw).perm (heapEnqueue_perm _ _ _).symm
  · refine heapEnqueue_heap _ ((heapDequeue_heap (heapDequeue_heap hh e1) e2).congr (fun n hn => ?_))
    exact weightOf_append _ (hf'.root_lt (by simp [hn]))
  · simp; omega

/-- The merge loop ends with one node queued (R134, R137). -/
theorem mergeLoop_spec : ∀ (fuel : Nat) {nodes : List Node} {h : List Word}, QueueOk ft nodes h → 1 ≤ h.length →
    h.length ≤ fuel + 1 → ∃ nodes' r, mergeLoop fuel nodes h = some (nodes', [r]) ∧ QueueOk ft nodes' [r]
  | 0, nodes, h, hq, h1, hf => by
    obtain ⟨r, rfl⟩ := List.length_eq_one_iff.1 (by omega : h.length = 1)
    exact ⟨nodes, r, rfl, hq⟩
  | fuel + 1, nodes, h, hq, h1, hf => by
    unfold mergeLoop
    split
    · rename_i h2
      obtain ⟨a, b, r1, r2, e1, e2, -, -, e, hq'⟩ := mergeTwo_spec hq h2
      have l1 := heapDequeue_length e1
      have l2 := heapDequeue_length e2
      rw [e]
      exact mergeLoop_spec fuel hq' (by simp) (by simp; omega)
    · obtain ⟨r, rfl⟩ := List.length_eq_one_iff.1 (by omega : h.length = 1)
      exact ⟨nodes, r, rfl, hq⟩

/-- The queue of TREE_INIT (R131). -/
theorem queueOk_leafNodes (hs : ft.length ≤ 2 ^ 16) (ht : (ft.map (fun e => e.freq.toNat)).sum < 2 ^ 32) :
    QueueOk ft (leafNodes ft) (enqueueLeaves (leafNodes ft) ft.length) := by
  obtain ⟨hp, hh⟩ := enqueueLeaves_spec (leafNodes ft) (k := ft.length) (by omega)
  exact ⟨forest_leafNodes hp, hh, by simp; omega, hs, ht⟩

/-- The last root is the node created last, 2k - 2 (R137). -/
theorem QueueOk.last_root {r : Word} (hq : QueueOk ft nodes [r]) : r.toNat = 2 * ft.length - 2 := by
  obtain ⟨hf, -, hc, hs, -⟩ := hq
  have hpos : 0 < nodes.length := Nat.lt_of_le_of_lt (Nat.zero_le _) (hf.root_lt (List.mem_singleton_self r))
  have hmem : nodes.length - 1 ∈ [r].map BitVec.toNat ++ nodes.flatMap childIndices :=
    hf.owned.mem_iff.2 (by simp; omega)
  rw [List.mem_append] at hmem
  rcases hmem with hm | hm
  · simp at hm hc; omega
  · obtain ⟨nd, hnd, hc'⟩ := List.mem_flatMap.1 hm
    obtain ⟨j, hj, rfl⟩ := List.getElem_of_mem hnd
    cases hj' : nodes[j] with
    | leaf s w => rw [hj'] at hc'; simp [childIndices] at hc'
    | internal w l r' =>
      rw [hj'] at hc'
      have := hf.children (i := j) (w := w) (l := l) (r := r') (by rw [List.getElem?_eq_getElem hj, hj'])
      simp [childIndices] at hc'; omega

end Sys2Proof.Machine
end

