-- ==== Sys2Proof/Laws/State.lean ====
section
/-! SUPPORT. One lemma per field per update of State. -/

namespace Sys2Proof.Machine

/-! ### complete -/

@[simp] theorem complete_params (c : Code) (s : State) : (complete c s).params = s.params := rfl

@[simp] theorem complete_arg (c : Code) (s : State) : (complete c s).arg = s.arg := rfl

@[simp] theorem complete_res0 (c : Code) (s : State) : (complete c s).res0 = s.res0 := rfl

@[simp] theorem complete_res1 (c : Code) (s : State) : (complete c s).res1 = s.res1 := rfl

@[simp] theorem complete_res2 (c : Code) (s : State) : (complete c s).res2 = s.res2 := rfl

@[simp] theorem complete_res3 (c : Code) (s : State) : (complete c s).res3 = s.res3 := rfl

@[simp] theorem complete_sticky (c : Code) (s : State) : (complete c s).sticky = stickyAfter s.sticky c := rfl

@[simp] theorem complete_overrun (c : Code) (s : State) : (complete c s).overrun = s.overrun := rfl

@[simp] theorem complete_last (c : Code) (s : State) : (complete c s).last = c := rfl

@[simp] theorem complete_phase (c : Code) (s : State) : (complete c s).phase = s.phase := rfl

@[simp] theorem complete_pending (c : Code) (s : State) : (complete c s).pending = none := rfl

@[simp] theorem complete_ft (c : Code) (s : State) : (complete c s).ft = s.ft := rfl

@[simp] theorem complete_totalW (c : Code) (s : State) : (complete c s).totalW = s.totalW := rfl

@[simp] theorem complete_nodes (c : Code) (s : State) : (complete c s).nodes = s.nodes := rfl

@[simp] theorem complete_root (c : Code) (s : State) : (complete c s).root = s.root := rfl

@[simp] theorem complete_heap (c : Code) (s : State) : (complete c s).heap = s.heap := rfl

@[simp] theorem complete_code (c : Code) (s : State) : (complete c s).code = s.code := rfl

@[simp] theorem complete_out (c : Code) (s : State) : (complete c s).out = s.out := rfl

@[simp] theorem complete_env (c : Code) (s : State) : (complete c s).env = s.env := rfl

/-! ### aborted -/

@[simp] theorem aborted_params (c : Code) (s : State) : (aborted c s).params = s.params := rfl

@[simp] theorem aborted_arg (c : Code) (s : State) : (aborted c s).arg = s.arg := rfl

@[simp] theorem aborted_res0 (c : Code) (s : State) : (aborted c s).res0 = s.res0 := rfl

@[simp] theorem aborted_res1 (c : Code) (s : State) : (aborted c s).res1 = s.res1 := rfl

@[simp] theorem aborted_res2 (c : Code) (s : State) : (aborted c s).res2 = s.res2 := rfl

@[simp] theorem aborted_res3 (c : Code) (s : State) : (aborted c s).res3 = s.res3 := rfl

@[simp] theorem aborted_sticky (c : Code) (s : State) : (aborted c s).sticky = true := rfl

@[simp] theorem aborted_overrun (c : Code) (s : State) : (aborted c s).overrun = s.overrun := rfl

@[simp] theorem aborted_last (c : Code) (s : State) : (aborted c s).last = c := rfl

@[simp] theorem aborted_phase (c : Code) (s : State) : (aborted c s).phase = s.phase := rfl

@[simp] theorem aborted_pending (c : Code) (s : State) : (aborted c s).pending = none := rfl

@[simp] theorem aborted_ft (c : Code) (s : State) : (aborted c s).ft = s.ft := rfl

@[simp] theorem aborted_totalW (c : Code) (s : State) : (aborted c s).totalW = s.totalW := rfl

@[simp] theorem aborted_nodes (c : Code) (s : State) : (aborted c s).nodes = s.nodes := rfl

@[simp] theorem aborted_root (c : Code) (s : State) : (aborted c s).root = s.root := rfl

@[simp] theorem aborted_heap (c : Code) (s : State) : (aborted c s).heap = s.heap := rfl

@[simp] theorem aborted_code (c : Code) (s : State) : (aborted c s).code = s.code := rfl

@[simp] theorem aborted_out (c : Code) (s : State) : (aborted c s).out = s.out := rfl

@[simp] theorem aborted_env (c : Code) (s : State) : (aborted c s).env = s.env := rfl

/-! ### completed -/

@[simp] theorem completed_params (s : State) : (completed s).params = s.params := rfl

@[simp] theorem completed_arg (s : State) : (completed s).arg = s.arg := rfl

@[simp] theorem completed_res0 (s : State) : (completed s).res0 = s.res0 := rfl

@[simp] theorem completed_res1 (s : State) : (completed s).res1 = s.res1 := rfl

@[simp] theorem completed_res2 (s : State) : (completed s).res2 = s.res2 := rfl

@[simp] theorem completed_res3 (s : State) : (completed s).res3 = s.res3 := rfl

@[simp] theorem completed_sticky (s : State) : (completed s).sticky = s.sticky := rfl

@[simp] theorem completed_overrun (s : State) : (completed s).overrun = s.overrun := rfl

@[simp] theorem completed_last (s : State) : (completed s).last = .ok := rfl

@[simp] theorem completed_phase (s : State) : (completed s).phase = s.phase := rfl

@[simp] theorem completed_pending (s : State) : (completed s).pending = none := rfl

@[simp] theorem completed_ft (s : State) : (completed s).ft = s.ft := rfl

@[simp] theorem completed_totalW (s : State) : (completed s).totalW = s.totalW := rfl

@[simp] theorem completed_nodes (s : State) : (completed s).nodes = s.nodes := rfl

@[simp] theorem completed_root (s : State) : (completed s).root = s.root := rfl

@[simp] theorem completed_heap (s : State) : (completed s).heap = s.heap := rfl

@[simp] theorem completed_code (s : State) : (completed s).code = s.code := rfl

@[simp] theorem completed_out (s : State) : (completed s).out = s.out := rfl

@[simp] theorem completed_env (s : State) : (completed s).env = s.env := rfl

/-! ### popOp -/

@[simp] theorem popOp_params (s : State) : (popOp s).params = s.params := rfl

@[simp] theorem popOp_arg (s : State) : (popOp s).arg = s.arg := rfl

@[simp] theorem popOp_res0 (s : State) : (popOp s).res0 = s.res0 := rfl

@[simp] theorem popOp_res1 (s : State) : (popOp s).res1 = s.res1 := rfl

@[simp] theorem popOp_res2 (s : State) : (popOp s).res2 = s.res2 := rfl

@[simp] theorem popOp_res3 (s : State) : (popOp s).res3 = s.res3 := rfl

@[simp] theorem popOp_sticky (s : State) : (popOp s).sticky = s.sticky := rfl

@[simp] theorem popOp_overrun (s : State) : (popOp s).overrun = s.overrun := rfl

@[simp] theorem popOp_last (s : State) : (popOp s).last = s.last := rfl

@[simp] theorem popOp_phase (s : State) : (popOp s).phase = s.phase := rfl

@[simp] theorem popOp_pending (s : State) : (popOp s).pending = s.pending := rfl

@[simp] theorem popOp_ft (s : State) : (popOp s).ft = s.ft := rfl

@[simp] theorem popOp_totalW (s : State) : (popOp s).totalW = s.totalW := rfl

@[simp] theorem popOp_nodes (s : State) : (popOp s).nodes = s.nodes := rfl

@[simp] theorem popOp_root (s : State) : (popOp s).root = s.root := rfl

@[simp] theorem popOp_heap (s : State) : (popOp s).heap = s.heap := rfl

@[simp] theorem popOp_code (s : State) : (popOp s).code = s.code := rfl

@[simp] theorem popOp_out (s : State) : (popOp s).out = s.out := rfl

@[simp] theorem popOp_env (s : State) : (popOp s).env = { s.env with ops := s.env.ops.tail } := rfl

/-! ### record -/

@[simp] theorem record_params (t : List TraceEntry) (s : State) : (record t s).params = s.params := rfl

@[simp] theorem record_arg (t : List TraceEntry) (s : State) : (record t s).arg = s.arg := rfl

@[simp] theorem record_res0 (t : List TraceEntry) (s : State) : (record t s).res0 = s.res0 := rfl

@[simp] theorem record_res1 (t : List TraceEntry) (s : State) : (record t s).res1 = s.res1 := rfl

@[simp] theorem record_res2 (t : List TraceEntry) (s : State) : (record t s).res2 = s.res2 := rfl

@[simp] theorem record_res3 (t : List TraceEntry) (s : State) : (record t s).res3 = s.res3 := rfl

@[simp] theorem record_sticky (t : List TraceEntry) (s : State) : (record t s).sticky = s.sticky := rfl

@[simp] theorem record_overrun (t : List TraceEntry) (s : State) : (record t s).overrun = s.overrun := rfl

@[simp] theorem record_last (t : List TraceEntry) (s : State) : (record t s).last = s.last := rfl

@[simp] theorem record_phase (t : List TraceEntry) (s : State) : (record t s).phase = s.phase := rfl

@[simp] theorem record_pending (t : List TraceEntry) (s : State) : (record t s).pending = s.pending := rfl

@[simp] theorem record_ft (t : List TraceEntry) (s : State) : (record t s).ft = s.ft := rfl

@[simp] theorem record_totalW (t : List TraceEntry) (s : State) : (record t s).totalW = s.totalW := rfl

@[simp] theorem record_nodes (t : List TraceEntry) (s : State) : (record t s).nodes = s.nodes := rfl

@[simp] theorem record_root (t : List TraceEntry) (s : State) : (record t s).root = s.root := rfl

@[simp] theorem record_heap (t : List TraceEntry) (s : State) : (record t s).heap = s.heap := rfl

@[simp] theorem record_code (t : List TraceEntry) (s : State) : (record t s).code = s.code := rfl

@[simp] theorem record_out (t : List TraceEntry) (s : State) : (record t s).out = s.out := rfl

@[simp] theorem record_env (t : List TraceEntry) (s : State) : (record t s).env = { s.env with trace := s.env.trace ++ t } := rfl

/-! ### takeTurn -/

@[simp] theorem takeTurn_params (s : State) : (takeTurn s).params = s.params := by
  unfold takeTurn; split <;> rfl

@[simp] theorem takeTurn_arg (s : State) : (takeTurn s).arg = s.arg := by
  unfold takeTurn; split <;> rfl

@[simp] theorem takeTurn_res0 (s : State) : (takeTurn s).res0 = s.res0 := by
  unfold takeTurn; split <;> rfl

@[simp] theorem takeTurn_res1 (s : State) : (takeTurn s).res1 = s.res1 := by
  unfold takeTurn; split <;> rfl

@[simp] theorem takeTurn_res2 (s : State) : (takeTurn s).res2 = s.res2 := by
  unfold takeTurn; split <;> rfl

@[simp] theorem takeTurn_res3 (s : State) : (takeTurn s).res3 = s.res3 := by
  unfold takeTurn; split <;> rfl

@[simp] theorem takeTurn_sticky (s : State) : (takeTurn s).sticky = s.sticky := by
  unfold takeTurn; split <;> rfl

@[simp] theorem takeTurn_overrun (s : State) : (takeTurn s).overrun = s.overrun := by
  unfold takeTurn; split <;> rfl

@[simp] theorem takeTurn_last (s : State) : (takeTurn s).last = s.last := by
  unfold takeTurn; split <;> rfl

@[simp] theorem takeTurn_phase (s : State) : (takeTurn s).phase = s.phase := by
  unfold takeTurn; split <;> rfl

@[simp] theorem takeTurn_pending (s : State) : (takeTurn s).pending = s.pending := by
  unfold takeTurn; split <;> rfl

@[simp] theorem takeTurn_ft (s : State) : (takeTurn s).ft = s.ft := by
  unfold takeTurn; split <;> rfl

@[simp] theorem takeTurn_totalW (s : State) : (takeTurn s).totalW = s.totalW := by
  unfold takeTurn; split <;> rfl

@[simp] theorem takeTurn_nodes (s : State) : (takeTurn s).nodes = s.nodes := by
  unfold takeTurn; split <;> rfl

@[simp] theorem takeTurn_root (s : State) : (takeTurn s).root = s.root := by
  unfold takeTurn; split <;> rfl

@[simp] theorem takeTurn_heap (s : State) : (takeTurn s).heap = s.heap := by
  unfold takeTurn; split <;> rfl

@[simp] theorem takeTurn_code (s : State) : (takeTurn s).code = s.code := by
  unfold takeTurn; split <;> rfl

@[simp] theorem takeTurn_out (s : State) : (takeTurn s).out = s.out := by
  unfold takeTurn; split <;> rfl

/-! ### afterRead -/

@[simp] theorem afterRead_params (s : State) (r : Reg) : (afterRead s r).params = s.params := by
  unfold afterRead; split <;> rfl

@[simp] theorem afterRead_arg (s : State) (r : Reg) : (afterRead s r).arg = s.arg := by
  unfold afterRead; split <;> rfl

@[simp] theorem afterRead_res0 (s : State) (r : Reg) : (afterRead s r).res0 = s.res0 := by
  unfold afterRead; split <;> rfl

@[simp] theorem afterRead_res1 (s : State) (r : Reg) : (afterRead s r).res1 = s.res1 := by
  unfold afterRead; split <;> rfl

@[simp] theorem afterRead_res2 (s : State) (r : Reg) : (afterRead s r).res2 = s.res2 := by
  unfold afterRead; split <;> rfl

@[simp] theorem afterRead_res3 (s : State) (r : Reg) : (afterRead s r).res3 = s.res3 := by
  unfold afterRead; split <;> rfl

@[simp] theorem afterRead_sticky (s : State) (r : Reg) : (afterRead s r).sticky = s.sticky := by
  unfold afterRead; split <;> rfl

@[simp] theorem afterRead_overrun (s : State) (r : Reg) : (afterRead s r).overrun = s.overrun := by
  unfold afterRead; split <;> rfl

@[simp] theorem afterRead_last (s : State) (r : Reg) : (afterRead s r).last = s.last := by
  unfold afterRead; split <;> rfl

@[simp] theorem afterRead_phase (s : State) (r : Reg) : (afterRead s r).phase = s.phase := by
  unfold afterRead; split <;> rfl

@[simp] theorem afterRead_pending (s : State) (r : Reg) : (afterRead s r).pending = s.pending := by
  unfold afterRead; split <;> rfl

@[simp] theorem afterRead_ft (s : State) (r : Reg) : (afterRead s r).ft = s.ft := by
  unfold afterRead; split <;> rfl

@[simp] theorem afterRead_totalW (s : State) (r : Reg) : (afterRead s r).totalW = s.totalW := by
  unfold afterRead; split <;> rfl

@[simp] theorem afterRead_nodes (s : State) (r : Reg) : (afterRead s r).nodes = s.nodes := by
  unfold afterRead; split <;> rfl

@[simp] theorem afterRead_root (s : State) (r : Reg) : (afterRead s r).root = s.root := by
  unfold afterRead; split <;> rfl

@[simp] theorem afterRead_heap (s : State) (r : Reg) : (afterRead s r).heap = s.heap := by
  unfold afterRead; split <;> rfl

@[simp] theorem afterRead_code (s : State) (r : Reg) : (afterRead s r).code = s.code := by
  unfold afterRead; split <;> rfl

@[simp] theorem afterRead_out (s : State) (r : Reg) : (afterRead s r).out = s.out := by
  unfold afterRead; split <;> rfl

/-! ### noteRead -/

@[simp] theorem noteRead_params (r : Reg) (s : State) : (noteRead r s).params = s.params := by
  unfold noteRead; split <;> rfl

@[simp] theorem noteRead_arg (r : Reg) (s : State) : (noteRead r s).arg = s.arg := by
  unfold noteRead; split <;> rfl

@[simp] theorem noteRead_res0 (r : Reg) (s : State) : (noteRead r s).res0 = s.res0 := by
  unfold noteRead; split <;> rfl

@[simp] theorem noteRead_res1 (r : Reg) (s : State) : (noteRead r s).res1 = s.res1 := by
  unfold noteRead; split <;> rfl

@[simp] theorem noteRead_res2 (r : Reg) (s : State) : (noteRead r s).res2 = s.res2 := by
  unfold noteRead; split <;> rfl

@[simp] theorem noteRead_res3 (r : Reg) (s : State) : (noteRead r s).res3 = s.res3 := by
  unfold noteRead; split <;> rfl

@[simp] theorem noteRead_sticky (r : Reg) (s : State) : (noteRead r s).sticky = s.sticky := by
  unfold noteRead; split <;> rfl

@[simp] theorem noteRead_overrun (r : Reg) (s : State) : (noteRead r s).overrun = s.overrun := by
  unfold noteRead; split <;> rfl

@[simp] theorem noteRead_last (r : Reg) (s : State) : (noteRead r s).last = s.last := by
  unfold noteRead; split <;> rfl

@[simp] theorem noteRead_phase (r : Reg) (s : State) : (noteRead r s).phase = s.phase := by
  unfold noteRead; split <;> rfl

@[simp] theorem noteRead_pending (r : Reg) (s : State) : (noteRead r s).pending = s.pending := by
  unfold noteRead; split <;> rfl

@[simp] theorem noteRead_ft (r : Reg) (s : State) : (noteRead r s).ft = s.ft := by
  unfold noteRead; split <;> rfl

@[simp] theorem noteRead_totalW (r : Reg) (s : State) : (noteRead r s).totalW = s.totalW := by
  unfold noteRead; split <;> rfl

@[simp] theorem noteRead_nodes (r : Reg) (s : State) : (noteRead r s).nodes = s.nodes := by
  unfold noteRead; split <;> rfl

@[simp] theorem noteRead_root (r : Reg) (s : State) : (noteRead r s).root = s.root := by
  unfold noteRead; split <;> rfl

@[simp] theorem noteRead_heap (r : Reg) (s : State) : (noteRead r s).heap = s.heap := by
  unfold noteRead; split <;> rfl

@[simp] theorem noteRead_code (r : Reg) (s : State) : (noteRead r s).code = s.code := by
  unfold noteRead; split <;> rfl

@[simp] theorem noteRead_out (r : Reg) (s : State) : (noteRead r s).out = s.out := by
  unfold noteRead; split <;> rfl

/-! ### noteWrite -/

@[simp] theorem noteWrite_params (r : Reg) (s : State) : (noteWrite r s).params = s.params := by
  unfold noteWrite; split <;> rfl

@[simp] theorem noteWrite_arg (r : Reg) (s : State) : (noteWrite r s).arg = s.arg := by
  unfold noteWrite; split <;> rfl

@[simp] theorem noteWrite_res0 (r : Reg) (s : State) : (noteWrite r s).res0 = s.res0 := by
  unfold noteWrite; split <;> rfl

@[simp] theorem noteWrite_res1 (r : Reg) (s : State) : (noteWrite r s).res1 = s.res1 := by
  unfold noteWrite; split <;> rfl

@[simp] theorem noteWrite_res2 (r : Reg) (s : State) : (noteWrite r s).res2 = s.res2 := by
  unfold noteWrite; split <;> rfl

@[simp] theorem noteWrite_res3 (r : Reg) (s : State) : (noteWrite r s).res3 = s.res3 := by
  unfold noteWrite; split <;> rfl

@[simp] theorem noteWrite_sticky (r : Reg) (s : State) : (noteWrite r s).sticky = s.sticky := by
  unfold noteWrite; split <;> rfl

@[simp] theorem noteWrite_overrun (r : Reg) (s : State) : (noteWrite r s).overrun = s.overrun := by
  unfold noteWrite; split <;> rfl

@[simp] theorem noteWrite_last (r : Reg) (s : State) : (noteWrite r s).last = s.last := by
  unfold noteWrite; split <;> rfl

@[simp] theorem noteWrite_phase (r : Reg) (s : State) : (noteWrite r s).phase = s.phase := by
  unfold noteWrite; split <;> rfl

@[simp] theorem noteWrite_pending (r : Reg) (s : State) : (noteWrite r s).pending = s.pending := by
  unfold noteWrite; split <;> rfl

@[simp] theorem noteWrite_ft (r : Reg) (s : State) : (noteWrite r s).ft = s.ft := by
  unfold noteWrite; split <;> rfl

@[simp] theorem noteWrite_totalW (r : Reg) (s : State) : (noteWrite r s).totalW = s.totalW := by
  unfold noteWrite; split <;> rfl

@[simp] theorem noteWrite_nodes (r : Reg) (s : State) : (noteWrite r s).nodes = s.nodes := by
  unfold noteWrite; split <;> rfl

@[simp] theorem noteWrite_root (r : Reg) (s : State) : (noteWrite r s).root = s.root := by
  unfold noteWrite; split <;> rfl

@[simp] theorem noteWrite_heap (r : Reg) (s : State) : (noteWrite r s).heap = s.heap := by
  unfold noteWrite; split <;> rfl

@[simp] theorem noteWrite_code (r : Reg) (s : State) : (noteWrite r s).code = s.code := by
  unfold noteWrite; split <;> rfl

@[simp] theorem noteWrite_out (r : Reg) (s : State) : (noteWrite r s).out = s.out := by
  unfold noteWrite; split <;> rfl

/-! ### hostRead -/

@[simp] theorem hostRead_params (off : Nat) (s : State) : (hostRead off s).params = s.params := by simp [hostRead]

@[simp] theorem hostRead_arg (off : Nat) (s : State) : (hostRead off s).arg = s.arg := by simp [hostRead]

@[simp] theorem hostRead_res0 (off : Nat) (s : State) : (hostRead off s).res0 = s.res0 := by simp [hostRead]

@[simp] theorem hostRead_res1 (off : Nat) (s : State) : (hostRead off s).res1 = s.res1 := by simp [hostRead]

@[simp] theorem hostRead_res2 (off : Nat) (s : State) : (hostRead off s).res2 = s.res2 := by simp [hostRead]

@[simp] theorem hostRead_res3 (off : Nat) (s : State) : (hostRead off s).res3 = s.res3 := by simp [hostRead]

@[simp] theorem hostRead_sticky (off : Nat) (s : State) : (hostRead off s).sticky = s.sticky := by simp [hostRead]

@[simp] theorem hostRead_overrun (off : Nat) (s : State) : (hostRead off s).overrun = s.overrun := by simp [hostRead]

@[simp] theorem hostRead_last (off : Nat) (s : State) : (hostRead off s).last = s.last := by simp [hostRead]

@[simp] theorem hostRead_phase (off : Nat) (s : State) : (hostRead off s).phase = s.phase := by simp [hostRead]

@[simp] theorem hostRead_pending (off : Nat) (s : State) : (hostRead off s).pending = s.pending := by simp [hostRead]

@[simp] theorem hostRead_ft (off : Nat) (s : State) : (hostRead off s).ft = s.ft := by simp [hostRead]

@[simp] theorem hostRead_totalW (off : Nat) (s : State) : (hostRead off s).totalW = s.totalW := by simp [hostRead]

@[simp] theorem hostRead_nodes (off : Nat) (s : State) : (hostRead off s).nodes = s.nodes := by simp [hostRead]

@[simp] theorem hostRead_root (off : Nat) (s : State) : (hostRead off s).root = s.root := by simp [hostRead]

@[simp] theorem hostRead_heap (off : Nat) (s : State) : (hostRead off s).heap = s.heap := by simp [hostRead]

@[simp] theorem hostRead_code (off : Nat) (s : State) : (hostRead off s).code = s.code := by simp [hostRead]

@[simp] theorem hostRead_out (off : Nat) (s : State) : (hostRead off s).out = s.out := by simp [hostRead]

/-! ### hostPoll -/

@[simp] theorem hostPoll_params (s : State) : (hostPoll s).params = s.params := by simp [hostPoll]

@[simp] theorem hostPoll_arg (s : State) : (hostPoll s).arg = s.arg := by simp [hostPoll]

@[simp] theorem hostPoll_res0 (s : State) : (hostPoll s).res0 = s.res0 := by simp [hostPoll]

@[simp] theorem hostPoll_res1 (s : State) : (hostPoll s).res1 = s.res1 := by simp [hostPoll]

@[simp] theorem hostPoll_res2 (s : State) : (hostPoll s).res2 = s.res2 := by simp [hostPoll]

@[simp] theorem hostPoll_res3 (s : State) : (hostPoll s).res3 = s.res3 := by simp [hostPoll]

@[simp] theorem hostPoll_sticky (s : State) : (hostPoll s).sticky = s.sticky := by simp [hostPoll]

@[simp] theorem hostPoll_overrun (s : State) : (hostPoll s).overrun = s.overrun := by simp [hostPoll]

@[simp] theorem hostPoll_last (s : State) : (hostPoll s).last = s.last := by simp [hostPoll]

@[simp] theorem hostPoll_phase (s : State) : (hostPoll s).phase = s.phase := by simp [hostPoll]

@[simp] theorem hostPoll_pending (s : State) : (hostPoll s).pending = s.pending := by simp [hostPoll]

@[simp] theorem hostPoll_ft (s : State) : (hostPoll s).ft = s.ft := by simp [hostPoll]

@[simp] theorem hostPoll_totalW (s : State) : (hostPoll s).totalW = s.totalW := by simp [hostPoll]

@[simp] theorem hostPoll_nodes (s : State) : (hostPoll s).nodes = s.nodes := by simp [hostPoll]

@[simp] theorem hostPoll_root (s : State) : (hostPoll s).root = s.root := by simp [hostPoll]

@[simp] theorem hostPoll_heap (s : State) : (hostPoll s).heap = s.heap := by simp [hostPoll]

@[simp] theorem hostPoll_code (s : State) : (hostPoll s).code = s.code := by simp [hostPoll]

@[simp] theorem hostPoll_out (s : State) : (hostPoll s).out = s.out := by simp [hostPoll]

/-! ### atReset -/

@[simp] theorem atReset_params (p : Params) (e : HostEnv) : (State.atReset p e).params = p := rfl

@[simp] theorem atReset_arg (p : Params) (e : HostEnv) : (State.atReset p e).arg = 0#32 := rfl

@[simp] theorem atReset_res0 (p : Params) (e : HostEnv) : (State.atReset p e).res0 = 0#32 := rfl

@[simp] theorem atReset_res1 (p : Params) (e : HostEnv) : (State.atReset p e).res1 = 0#32 := rfl

@[simp] theorem atReset_res2 (p : Params) (e : HostEnv) : (State.atReset p e).res2 = 0#32 := rfl

@[simp] theorem atReset_res3 (p : Params) (e : HostEnv) : (State.atReset p e).res3 = 0#32 := rfl

@[simp] theorem atReset_sticky (p : Params) (e : HostEnv) : (State.atReset p e).sticky = false := rfl

@[simp] theorem atReset_overrun (p : Params) (e : HostEnv) : (State.atReset p e).overrun = false := rfl

@[simp] theorem atReset_last (p : Params) (e : HostEnv) : (State.atReset p e).last = .ok := rfl

@[simp] theorem atReset_phase (p : Params) (e : HostEnv) : (State.atReset p e).phase = .loading := rfl

@[simp] theorem atReset_pending (p : Params) (e : HostEnv) : (State.atReset p e).pending = none := rfl

@[simp] theorem atReset_ft (p : Params) (e : HostEnv) : (State.atReset p e).ft = [] := rfl

@[simp] theorem atReset_totalW (p : Params) (e : HostEnv) : (State.atReset p e).totalW = 0#32 := rfl

@[simp] theorem atReset_nodes (p : Params) (e : HostEnv) : (State.atReset p e).nodes = [] := rfl

@[simp] theorem atReset_root (p : Params) (e : HostEnv) : (State.atReset p e).root = noNode := rfl

@[simp] theorem atReset_heap (p : Params) (e : HostEnv) : (State.atReset p e).heap = [] := rfl

@[simp] theorem atReset_code (p : Params) (e : HostEnv) : (State.atReset p e).code = [] := rfl

@[simp] theorem atReset_out (p : Params) (e : HostEnv) : (State.atReset p e).out = [] := rfl

@[simp] theorem atReset_env (p : Params) (e : HostEnv) : (State.atReset p e).env = e := rfl

/-! ### hostCheck and writeReg -/

@[simp] theorem hostCheck_params (off : Nat) (v : Word) (s : State) : (hostCheck off v s).params = s.params := by
  simp only [hostCheck]; split <;> simp

@[simp] theorem hostCheck_arg (off : Nat) (v : Word) (s : State) : (hostCheck off v s).arg = s.arg := by
  simp only [hostCheck]; split <;> simp

@[simp] theorem hostCheck_res0 (off : Nat) (v : Word) (s : State) : (hostCheck off v s).res0 = s.res0 := by
  simp only [hostCheck]; split <;> simp

@[simp] theorem hostCheck_res1 (off : Nat) (v : Word) (s : State) : (hostCheck off v s).res1 = s.res1 := by
  simp only [hostCheck]; split <;> simp

@[simp] theorem hostCheck_res2 (off : Nat) (v : Word) (s : State) : (hostCheck off v s).res2 = s.res2 := by
  simp only [hostCheck]; split <;> simp

@[simp] theorem hostCheck_res3 (off : Nat) (v : Word) (s : State) : (hostCheck off v s).res3 = s.res3 := by
  simp only [hostCheck]; split <;> simp

@[simp] theorem hostCheck_sticky (off : Nat) (v : Word) (s : State) : (hostCheck off v s).sticky = s.sticky := by
  simp only [hostCheck]; split <;> simp

@[simp] theorem hostCheck_overrun (off : Nat) (v : Word) (s : State) : (hostCheck off v s).overrun = s.overrun := by
  simp only [hostCheck]; split <;> simp

@[simp] theorem hostCheck_last (off : Nat) (v : Word) (s : State) : (hostCheck off v s).last = s.last := by
  simp only [hostCheck]; split <;> simp

@[simp] theorem hostCheck_phase (off : Nat) (v : Word) (s : State) : (hostCheck off v s).phase = s.phase := by
  simp only [hostCheck]; split <;> simp

@[simp] theorem hostCheck_pending (off : Nat) (v : Word) (s : State) : (hostCheck off v s).pending = s.pending := by
  simp only [hostCheck]; split <;> simp

@[simp] theorem hostCheck_ft (off : Nat) (v : Word) (s : State) : (hostCheck off v s).ft = s.ft := by
  simp only [hostCheck]; split <;> simp

@[simp] theorem hostCheck_totalW (off : Nat) (v : Word) (s : State) : (hostCheck off v s).totalW = s.totalW := by
  simp only [hostCheck]; split <;> simp

@[simp] theorem hostCheck_nodes (off : Nat) (v : Word) (s : State) : (hostCheck off v s).nodes = s.nodes := by
  simp only [hostCheck]; split <;> simp

@[simp] theorem hostCheck_root (off : Nat) (v : Word) (s : State) : (hostCheck off v s).root = s.root := by
  simp only [hostCheck]; split <;> simp

@[simp] theorem hostCheck_heap (off : Nat) (v : Word) (s : State) : (hostCheck off v s).heap = s.heap := by
  simp only [hostCheck]; split <;> simp

@[simp] theorem hostCheck_code (off : Nat) (v : Word) (s : State) : (hostCheck off v s).code = s.code := by
  simp only [hostCheck]; split <;> simp

@[simp] theorem hostCheck_out (off : Nat) (v : Word) (s : State) : (hostCheck off v s).out = s.out := by
  simp only [hostCheck]; split <;> simp

@[simp] theorem writeReg_params (r : Reg) (v : Word) (s : State) : (writeReg r v s).params = s.params := by
  cases r <;> simp only [writeReg] <;> split <;> rfl

@[simp] theorem writeReg_res0 (r : Reg) (v : Word) (s : State) : (writeReg r v s).res0 = s.res0 := by
  cases r <;> simp only [writeReg] <;> split <;> rfl

@[simp] theorem writeReg_res1 (r : Reg) (v : Word) (s : State) : (writeReg r v s).res1 = s.res1 := by
  cases r <;> simp only [writeReg] <;> split <;> rfl

@[simp] theorem writeReg_res2 (r : Reg) (v : Word) (s : State) : (writeReg r v s).res2 = s.res2 := by
  cases r <;> simp only [writeReg] <;> split <;> rfl

@[simp] theorem writeReg_res3 (r : Reg) (v : Word) (s : State) : (writeReg r v s).res3 = s.res3 := by
  cases r <;> simp only [writeReg] <;> split <;> rfl

@[simp] theorem writeReg_sticky (r : Reg) (v : Word) (s : State) : (writeReg r v s).sticky = s.sticky := by
  cases r <;> simp only [writeReg] <;> split <;> rfl

@[simp] theorem writeReg_last (r : Reg) (v : Word) (s : State) : (writeReg r v s).last = s.last := by
  cases r <;> simp only [writeReg] <;> split <;> rfl

@[simp] theorem writeReg_phase (r : Reg) (v : Word) (s : State) : (writeReg r v s).phase = s.phase := by
  cases r <;> simp only [writeReg] <;> split <;> rfl

@[simp] theorem writeReg_ft (r : Reg) (v : Word) (s : State) : (writeReg r v s).ft = s.ft := by
  cases r <;> simp only [writeReg] <;> split <;> rfl

@[simp] theorem writeReg_totalW (r : Reg) (v : Word) (s : State) : (writeReg r v s).totalW = s.totalW := by
  cases r <;> simp only [writeReg] <;> split <;> rfl

@[simp] theorem writeReg_nodes (r : Reg) (v : Word) (s : State) : (writeReg r v s).nodes = s.nodes := by
  cases r <;> simp only [writeReg] <;> split <;> rfl

@[simp] theorem writeReg_root (r : Reg) (v : Word) (s : State) : (writeReg r v s).root = s.root := by
  cases r <;> simp only [writeReg] <;> split <;> rfl

@[simp] theorem writeReg_heap (r : Reg) (v : Word) (s : State) : (writeReg r v s).heap = s.heap := by
  cases r <;> simp only [writeReg] <;> split <;> rfl

@[simp] theorem writeReg_code (r : Reg) (v : Word) (s : State) : (writeReg r v s).code = s.code := by
  cases r <;> simp only [writeReg] <;> split <;> rfl

@[simp] theorem writeReg_out (r : Reg) (v : Word) (s : State) : (writeReg r v s).out = s.out := by
  cases r <;> simp only [writeReg] <;> split <;> rfl

@[simp] theorem writeReg_env (r : Reg) (v : Word) (s : State) : (writeReg r v s).env = s.env := by
  cases r <;> simp only [writeReg] <;> split <;> rfl

/-! ### Completion -/

theorem finish_eq (s : State) : finish s = .next (completed s) := rfl

theorem raise_eq (c : Code) (s : State) (h : c ≠ .ok) : raise c s = .next (aborted c s) := by
  simp [raise, complete, aborted, stickyAfter, h]

/-- Everything `finish` can answer. -/
theorem finish_next (s t : State) : finish s = .next t ↔ t = completed s := by
  rw [finish_eq, Host.Outcome.next.injEq, eq_comm]

/-- Everything `raise` can answer. -/
theorem raise_next (c : Code) (s t : State) (h : c ≠ .ok) : raise c s = .next t ↔ t = aborted c s := by
  rw [raise_eq c s h, Host.Outcome.next.injEq, eq_comm]

/-- A schedule choice and BUSY: only the environment differs. -/
theorem takeTurn_eq (s : State) (h : s.busy = true) :
    takeTurn s = { s with env := { s.env with turns := s.env.turns.tail } } := by
  simp [takeTurn, h]

theorem takeTurn_idle (s : State) (h : s.busy = false) : takeTurn s = s := by
  simp [takeTurn, h]

theorem busy_of_pending {s : State} {w : Word} (h : s.pending = some w) : s.busy = true := by
  simp [State.busy, h]

theorem not_busy_iff (s : State) : s.busy = false ↔ s.pending = none := by
  simp [State.busy]

end Sys2Proof.Machine
end

