-- ==== Sys2Proof/Laws/Commands.lean ====
section
/-! SUPPORT. Everything exec can answer, said once (60_exceptions.md R202, R204, R205; 10_state.md R28, R29): a command aborts
with one of its codes, or commits writes only where its rule has it write. -/

namespace Sys2Proof.Machine

/-- What a successful command may have written: u is the state before completion. -/
structure Touches (i : Instr) (s u : State) : Prop where
  params  : u.params = s.params
  arg     : u.arg = s.arg
  env     : u.env = s.env
  pending : u.pending = s.pending
  sticky  : u.sticky = if i = .errAck then false else s.sticky
  overrun : u.overrun = if i = .errAck then false else s.overrun
  res0    : resultWords i < 1 → u.res0 = s.res0
  res1    : resultWords i < 2 → u.res1 = s.res1
  res2    : resultWords i < 3 → u.res2 = s.res2
  res3    : resultWords i < 4 → u.res3 = s.res3
  phase   : u.phase = s.phase ∨
    (i = .treeInit ∧ s.phase = .loading ∧ u.phase = .queued) ∨ (i = .treeFinish ∧ s.phase = .queued ∧ u.phase = .tree) ∨
    (i = .treeBuild ∧ s.phase = .loading ∧ u.phase = .tree) ∨ (i = .codesBuild ∧ s.phase = .tree ∧ u.phase = .coded) ∨
    (i = .clear ∧ u.phase = .loading)
  table   : (u.ft = s.ft ∧ u.totalW = s.totalW) ∨ i = .clear ∨ ((∃ sym, i = .ftAdd sym) ∧ s.phase = .loading)
  nodes   : u.nodes = s.nodes ∨ i = .clear ∨ ((i = .treeInit ∨ i = .treeBuild) ∧ s.phase = .loading) ∨
    (i = .treeStep ∧ s.phase = .queued)
  heap    : u.heap = s.heap ∨ i = .clear ∨ ((i = .treeInit ∨ i = .treeBuild) ∧ s.phase = .loading) ∨
    ((i = .treeStep ∨ i = .treeFinish) ∧ s.phase = .queued)
  root    : u.root = s.root ∨ i = .clear ∨ (i = .treeBuild ∧ s.phase = .loading) ∨ (i = .treeFinish ∧ s.phase = .queued)
  code    : u.code = s.code ∨ i = .clear ∨ (i = .codesBuild ∧ s.phase = .tree)
  out     : u.out = s.out ∨ i = .clear ∨ i = .outClear ∨ ((∃ sym, i = .encode sym) ∧ s.phase = .coded)

/-- The two ways a command ends. -/
def Ends (i : Instr) (s : State) (r : Result) : Prop :=
  (∃ c, c ∈ errorsOf i ∧ c ≠ .ok ∧ r = .next (aborted c s)) ∨ ∃ u, r = .next (completed u) ∧ Touches i s u

theorem ends_raise {i : Instr} {s : State} (c : Code) (hc : c ∈ errorsOf i) (h : c ≠ .ok) : Ends i s (raise c s) :=
  .inl ⟨c, hc, h, raise_eq c s h⟩

theorem ends_finish {i : Instr} {s : State} (u : State) (h : Touches i s u) : Ends i s (finish u) :=
  .inr ⟨u, finish_eq u, h⟩

theorem execNop_ends (s : State) : Ends .nop s (execNop s) :=
  ends_finish _ (by constructor <;> simp [resultWords])

theorem execClear_ends (s : State) : Ends .clear s (execClear s) :=
  ends_finish _ (by constructor <;> simp [resultWords])

theorem execErrAck_ends (s : State) : Ends .errAck s (execErrAck s) :=
  ends_finish _ (by constructor <;> simp [resultWords])

theorem execOutClear_ends (s : State) : Ends .outClear s (execOutClear s) :=
  ends_finish _ (by constructor <;> simp [resultWords])

theorem execOutRead_ends (s : State) : Ends .outRead s (execOutRead s) :=
  ends_finish _ (by constructor <;> simp [resultWords])

theorem execFtAdd_ends (sym : Symbol) (s : State) : Ends (.ftAdd sym) s (execFtAdd sym s) := by
  unfold execFtAdd
  repeat' split
  all_goals first
    | exact ends_raise _ (by simp [errorsOf]) (by simp)
    | exact ends_finish _ (by constructor <;> simp_all [resultWords])

theorem execFtRead_ends (s : State) : Ends .ftRead s (execFtRead s) := by
  unfold execFtRead
  split
  · exact ends_raise _ (by simp [errorsOf]) (by simp)
  · exact ends_finish _ (by constructor <;> simp [resultWords])

theorem execNodeRead_ends (s : State) : Ends .nodeRead s (execNodeRead s) := by
  unfold execNodeRead
  split
  · exact ends_raise _ (by simp [errorsOf]) (by simp)
  · exact ends_finish _ (by constructor <;> simp [resultWords])
  · exact ends_finish _ (by constructor <;> simp [resultWords])

theorem execPqPeek_ends (s : State) : Ends .pqPeek s (execPqPeek s) := by
  unfold execPqPeek
  split
  · exact ends_raise _ (by simp [errorsOf]) (by simp)
  · exact ends_finish _ (by constructor <;> simp [resultWords])

theorem execHeapRead_ends (s : State) : Ends .heapRead s (execHeapRead s) := by
  unfold execHeapRead
  split
  · exact ends_raise _ (by simp [errorsOf]) (by simp)
  · exact ends_finish _ (by constructor <;> simp [resultWords])

theorem execTreeInit_ends (s : State) : Ends .treeInit s (execTreeInit s) := by
  unfold execTreeInit
  repeat' split
  all_goals first
    | exact ends_raise _ (by simp [errorsOf]) (by simp)
    | exact ends_finish _ (by constructor <;> simp_all [resultWords])

theorem execTreeStep_ends (s : State) : Ends .treeStep s (execTreeStep s) := by
  unfold execTreeStep
  repeat' split
  all_goals first
    | exact ends_raise _ (by simp [errorsOf]) (by simp)
    | exact ends_finish _ (by constructor <;> simp_all [resultWords])

theorem execTreeFinish_ends (s : State) : Ends .treeFinish s (execTreeFinish s) := by
  unfold execTreeFinish
  repeat' split
  all_goals first
    | exact ends_raise _ (by simp [errorsOf]) (by simp)
    | exact ends_finish _ (by constructor <;> simp_all [resultWords])

/-- A merge of two queued nodes always answers, with one node queued fewer (R132). -/
theorem mergeTwo_length {nodes : List Node} {h : List Word} (h2 : 2 ≤ h.length) :
    ∃ nodes' h', mergeTwo nodes h = some (nodes', h') ∧ h'.length + 1 = h.length := by
  obtain ⟨a, r1, e1⟩ := heapDequeue_isSome (weightOf nodes) (h := h) (by omega)
  have l1 := heapDequeue_length e1
  obtain ⟨b, r2, e2⟩ := heapDequeue_isSome (weightOf nodes) (h := r1) (by omega)
  have l2 := heapDequeue_length e2
  refine ⟨_, _, by simp only [mergeTwo, e1, e2]; rfl, ?_⟩
  simp; omega

/-- The merge loop of any non-empty queue ends with one node queued: "none of the inner steps can fail" (R134). -/
theorem mergeLoop_length : ∀ (fuel : Nat) {nodes : List Node} {h : List Word}, 1 ≤ h.length → h.length ≤ fuel + 1 →
    ∃ nodes' r, mergeLoop fuel nodes h = some (nodes', [r])
  | 0, nodes, h, h1, hf => by
    obtain ⟨r, rfl⟩ := List.length_eq_one_iff.1 (by omega : h.length = 1)
    exact ⟨nodes, r, rfl⟩
  | fuel + 1, nodes, h, h1, hf => by
    unfold mergeLoop
    split
    · rename_i h2
      obtain ⟨nodes', h', e, hl⟩ := mergeTwo_length (nodes := nodes) h2
      rw [e]
      exact mergeLoop_length fuel (by omega) (by omega)
    · obtain ⟨r, rfl⟩ := List.length_eq_one_iff.1 (by omega : h.length = 1)
      exact ⟨nodes, r, rfl⟩

theorem execTreeBuild_ends (s : State) : Ends .treeBuild s (execTreeBuild s) := by
  unfold execTreeBuild
  split
  · exact ends_raise _ (by simp [errorsOf]) (by simp)
  · rename_i hp
    split
    · exact ends_raise _ (by simp [errorsOf]) (by simp)
    · rename_i hk
      obtain ⟨nodes', r, e⟩ := mergeLoop_length s.k (nodes := leafNodes s.ft)
        (h := enqueueLeaves (leafNodes s.ft) s.k) (by simp; omega) (by simp)
      rw [e]
      simp only [heapDequeue_singleton]
      exact ends_finish _ (by constructor <;> simp_all [resultWords])

theorem execCodesBuild_ends (s : State) : Ends .codesBuild s (execCodesBuild s) := by
  unfold execCodesBuild
  split
  · exact ends_raise _ (by simp [errorsOf]) (by simp)
  · exact ends_finish _ (by constructor <;> simp_all [resultWords])

theorem execCodeLen_ends (sym : Symbol) (s : State) : Ends (.codeLen sym) s (execCodeLen sym s) := by
  unfold execCodeLen
  split
  · exact ends_raise _ (by simp [errorsOf]) (by simp)
  · split
    · exact ends_raise _ (by simp [errorsOf]) (by simp)
    · exact ends_finish _ (by constructor <;> simp [resultWords])

theorem execCodeWord_ends (sym : Symbol) (s : State) : Ends (.codeWord sym) s (execCodeWord sym s) := by
  unfold execCodeWord
  split
  · exact ends_raise _ (by simp [errorsOf]) (by simp)
  · split
    · exact ends_raise _ (by simp [errorsOf]) (by simp)
    · exact ends_finish _ (by constructor <;> simp [resultWords])

theorem execEncode_ends (sym : Symbol) (s : State) : Ends (.encode sym) s (execEncode sym s) := by
  unfold execEncode
  repeat' split
  all_goals first
    | exact ends_raise _ (by simp [errorsOf]) (by simp)
    | exact ends_finish _ (by constructor <;> simp_all [resultWords])

/-- Everything exec can answer. -/
theorem exec_ends (i : Instr) (s : State) : Ends i s (exec i s) := by
  cases i with
  | nop => exact execNop_ends s
  | clear => exact execClear_ends s
  | errAck => exact execErrAck_ends s
  | outClear => exact execOutClear_ends s
  | ftAdd sym => exact execFtAdd_ends sym s
  | ftRead => exact execFtRead_ends s
  | treeInit => exact execTreeInit_ends s
  | treeStep => exact execTreeStep_ends s
  | treeFinish => exact execTreeFinish_ends s
  | treeBuild => exact execTreeBuild_ends s
  | nodeRead => exact execNodeRead_ends s
  | pqPeek => exact execPqPeek_ends s
  | heapRead => exact execHeapRead_ends s
  | codesBuild => exact execCodesBuild_ends s
  | codeLen sym => exact execCodeLen_ends sym s
  | codeWord sym => exact execCodeWord_ends sym s
  | encode sym => exact execEncode_ends sym s
  | outRead => exact execOutRead_ends s

end Sys2Proof.Machine
end

