-- ==== Sys2Proof/Laws/Bus.lean ====
section
/-! SUPPORT. The bus and the step, said once (20_memory.md R50 to R58): which access is refused, which register an access
reaches, and what the core's step and the host's leave alone. -/

namespace Sys2Proof.Machine

/-- An access of a slot of the window is defined (R50, R51). -/
theorem accessRefusal_slot (p : Params) {off : Nat} (h : off < 0x80) (h4 : off % 4 = 0) :
    accessRefusal p (p.huffBase + off) 4 = none := by
  simp [accessRefusal, accessWidthOk, accessInWindow, accessAligned, h, h4]

@[simp] theorem windowOffset_add (p : Params) (off : Nat) : windowOffset p (p.huffBase + off) = off := by
  simp [windowOffset]

/-- An access is refused exactly where R51 leaves it undefined. -/
theorem accessRefusal_isSome (p : Params) (addr bytes : Nat) :
    (∃ r, accessRefusal p addr bytes = some r) ↔
      (accessWidthOk bytes && accessInWindow p addr && accessAligned p addr) = false := by
  unfold accessRefusal
  cases accessWidthOk bytes <;> cases accessInWindow p addr <;> cases accessAligned p addr <;> simp

theorem accessRefusal_none {p : Params} {addr bytes : Nat}
    (h : (accessWidthOk bytes && accessInWindow p addr && accessAligned p addr) = true) :
    accessRefusal p addr bytes = none := by
  cases hr : accessRefusal p addr bytes with
  | none => rfl
  | some r => have := (accessRefusal_isSome p addr bytes).1 ⟨r, hr⟩; rw [h] at this; cases this

/-- Only CMD and ARG take a write (R22). -/
theorem writeReg_ignored {off : Nat} (v : Word) (s : State) (h1 : off ≠ 0x14) (h2 : off ≠ 0x18) :
    writeReg (regAt off) v s = s := by
  unfold regAt
  split <;> first | rfl | omega

@[simp] theorem takeTurn_ops (s : State) : (takeTurn s).env.ops = s.env.ops := by unfold takeTurn; split <;> rfl

@[simp] theorem takeTurn_trace (s : State) : (takeTurn s).env.trace = s.env.trace := by unfold takeTurn; split <;> rfl

@[simp] theorem takeTurn_draws (s : State) : (takeTurn s).env.draws = s.env.draws := by unfold takeTurn; split <;> rfl

@[simp] theorem takeTurn_busy (s : State) : (takeTurn s).busy = s.busy := by simp [State.busy]

@[simp] theorem afterRead_ops (s : State) (r : Reg) : (afterRead s r).env.ops = s.env.ops := by
  unfold afterRead; split <;> rfl

@[simp] theorem afterRead_turns (s : State) (r : Reg) : (afterRead s r).env.turns = s.env.turns := by
  unfold afterRead; split <;> rfl

@[simp] theorem afterRead_trace (s : State) (r : Reg) : (afterRead s r).env.trace = s.env.trace := by
  unfold afterRead; split <;> rfl

@[simp] theorem noteRead_ops (r : Reg) (s : State) : (noteRead r s).env.ops = s.env.ops := by unfold noteRead; split <;> rfl

@[simp] theorem noteRead_turns (r : Reg) (s : State) : (noteRead r s).env.turns = s.env.turns := by unfold noteRead; split <;> rfl

@[simp] theorem noteRead_trace (r : Reg) (s : State) : (noteRead r s).env.trace = s.env.trace := by unfold noteRead; split <;> rfl

@[simp] theorem noteRead_draws (r : Reg) (s : State) : (noteRead r s).env.draws = s.env.draws := by unfold noteRead; split <;> rfl

@[simp] theorem noteWrite_ops (r : Reg) (s : State) : (noteWrite r s).env.ops = s.env.ops := by unfold noteWrite; split <;> rfl

@[simp] theorem noteWrite_turns (r : Reg) (s : State) : (noteWrite r s).env.turns = s.env.turns := by unfold noteWrite; split <;> rfl

@[simp] theorem noteWrite_trace (r : Reg) (s : State) : (noteWrite r s).env.trace = s.env.trace := by unfold noteWrite; split <;> rfl

@[simp] theorem noteWrite_draws (r : Reg) (s : State) : (noteWrite r s).env.draws = s.env.draws := by unfold noteWrite; split <;> rfl

@[simp] theorem afterRead_unconfirmed (s : State) (r : Reg) : (afterRead s r).env.unconfirmed = s.env.unconfirmed := by
  unfold afterRead; split <;> rfl

@[simp] theorem takeTurn_unconfirmed (s : State) : (takeTurn s).env.unconfirmed = s.env.unconfirmed := by
  unfold takeTurn; split <;> rfl

@[simp] theorem noteRead_unconfirmed (r : Reg) (s : State) :
    (noteRead r s).env.unconfirmed = if r = .status ∧ s.busy = false then false else s.env.unconfirmed := by
  unfold noteRead; split <;> rfl

@[simp] theorem noteWrite_unconfirmed (r : Reg) (s : State) :
    (noteWrite r s).env.unconfirmed = if r = .cmd then true else s.env.unconfirmed := by
  unfold noteWrite; split <;> rfl

/-- Only a write to CMD is noted. -/
theorem noteWrite_other {r : Reg} (s : State) (h : r ≠ .cmd) : noteWrite r s = s := by simp [noteWrite, h]

@[simp] theorem hostRead_ops (off : Nat) (s : State) : (hostRead off s).env.ops = s.env.ops := by simp [hostRead]

@[simp] theorem hostRead_turns (off : Nat) (s : State) : (hostRead off s).env.turns = s.env.turns := by simp [hostRead]

@[simp] theorem hostRead_trace (off : Nat) (s : State) :
    (hostRead off s).env.trace = s.env.trace ++ [.read off (readValue s (regAt off))] := by simp [hostRead]

@[simp] theorem hostPoll_ops (s : State) : (hostPoll s).env.ops = s.env.ops := by simp [hostPoll]

@[simp] theorem hostPoll_turns (s : State) : (hostPoll s).env.turns = s.env.turns := by simp [hostPoll]

@[simp] theorem hostPoll_draws (s : State) : (hostPoll s).env.draws = s.env.draws := by simp [hostPoll]

@[simp] theorem hostPoll_trace (s : State) : (hostPoll s).env.trace = s.env.trace ++ [.poll (statusWord s)] := by
  simp [hostPoll, regContent]

/-- A poll confirms the host's commands exactly when it finds the core idle (R240). -/
@[simp] theorem hostPoll_unconfirmed (s : State) :
    (hostPoll s).env.unconfirmed = (s.busy && s.env.unconfirmed) := by
  cases h : s.busy <;> simp [hostPoll, h]

/-- The only reads an outcome leaves out are the polls that found the core busy (R240). -/
theorem isBusyPoll_statusWord (s : State) : isBusyPoll (.poll (statusWord s)) = s.busy := by
  simp only [isBusyPoll, statusWord, BitVec.getLsbD_append, Nat.zero_lt_one, if_true, BitVec.getLsbD_ofBool]
  simp

/-- A register's content is no matter of the environment. -/
theorem regContent_env (s : State) (e : HostEnv) (r : Reg) : regContent { s with env := e } r = regContent s r := by
  cases r <;> rfl

/-- With BUSY = 0 no read is a draw (R53). -/
theorem readValue_idle {s : State} (r : Reg) (h : s.busy = false) : readValue s r = regContent s r := by
  simp [readValue, readIsDraw, h]

theorem afterRead_idle {s : State} (r : Reg) (h : s.busy = false) : afterRead s r = s := by
  simp [afterRead, readIsDraw, h]

/-- A host's move is its next operation. -/
theorem step_host {s : State} {op : HostOp} {rest : List HostOp} (hm : mover s = .host) (ho : s.env.ops = op :: rest) :
    step s = hostStep op (takeTurn s) := by
  simp [step, hm, ho]

/-- The core's step always completes the word, and leaves the environment alone (R55, R200). -/
theorem executeWord_next (w : Word) (s : State) :
    ∃ t, executeWord w s = .next t ∧ t.env = s.env ∧ t.params = s.params ∧ t.arg = s.arg ∧ t.pending = none := by
  unfold executeWord
  cases decodeWord w with
  | error c => exact ⟨_, raise_eq _ _ (by simp), by simp⟩
  | ok i =>
    rcases exec_ends i s with ⟨c, -, -, h⟩ | ⟨u, h, ht⟩
    · exact ⟨_, h, by simp⟩
    · exact ⟨_, h, by simp [ht.env, ht.params, ht.arg]⟩

end Sys2Proof.Machine
end

