-- ==== Sys2Proof/Laws/Paths.lean ====
section
/-! SUPPORT. Paths in the tree and the walk that writes the codes (43_code_table.md R151). -/

namespace Sys2Proof.Machine

variable {ft : List FtEntry} {nodes : List Node} {roots : List Word}

/-! ### Paths -/

@[simp] theorem descend_nil (nodes : List Node) (n : Word) : descend nodes n [] = some n := rfl

theorem descend_internal {n w l r : Word} (h : nodes[n.toNat]? = some (.internal w l r)) (b : Bool) (p : BitString) :
    descend nodes n (b :: p) = descend nodes (if b then r else l) p := by
  simp [descend, h]

theorem descend_leaf {n w : Word} {s : Symbol} (h : nodes[n.toNat]? = some (.leaf s w)) (b : Bool) (p : BitString) :
    descend nodes n (b :: p) = none := by
  simp [descend, h]

/-- A path that goes on from n leaves an internal node. -/
theorem descend_cons {n m : Word} {b : Bool} {p : BitString} (h : descend nodes n (b :: p) = some m) :
    ∃ w l r, nodes[n.toNat]? = some (.internal w l r) ∧ descend nodes (if b then r else l) p = some m := by
  unfold descend at h
  split at h
  · exact ⟨_, _, _, ‹_›, h⟩
  · cases h
  · cases h

theorem descend_append (nodes : List Node) : ∀ (p q : BitString) (n : Word),
    descend nodes n (p ++ q) = (descend nodes n p).bind (fun m => descend nodes m q)
  | [], _, _ => rfl
  | b :: p, q, n => by
    rw [List.cons_append, descend, descend]
    split
    · exact descend_append nodes p q _
    · rfl
    · rfl

/-- A path goes down in the numbering (R32), and through internal nodes only until its end. -/
theorem Forest.path_bound (hf : Forest ft nodes roots) : ∀ (p : BitString) {n m : Word}, descend nodes n p = some m →
    m.toNat ≤ n.toNat ∧ (p ≠ [] → p.length + ft.length ≤ n.toNat + 1)
  | [], n, m, h => by simp at h; subst h; simp
  | b :: p, n, m, h => by
    obtain ⟨w, l, r, hn, hd⟩ := descend_cons h
    obtain ⟨hk, hl, hr, -⟩ := hf.children hn
    obtain ⟨h1, h2⟩ := hf.path_bound p hd
    have hc : (if b then r else l).toNat < n.toNat := by cases b <;> assumption
    refine ⟨by omega, fun _ => ?_⟩
    rcases p with _ | ⟨b', p⟩
    · simp; omega
    · have := h2 (by simp)
      simp only [List.length_cons] at this ⊢; omega

/-- In a tree, every node is on a path from the root (R136). -/
theorem Forest.reach {root : Word} (hf : Forest ft nodes [root]) (hlen : nodes.length ≤ 2 ^ 32) :
    ∀ d n, n < nodes.length → nodes.length - n ≤ d → ∃ p, (descend nodes root p).map BitVec.toNat = some n
  | 0, n, hn, hd => by omega
  | d + 1, n, hn, hd => by
    have hmem : n ∈ [root].map BitVec.toNat ++ nodes.flatMap childIndices := hf.owned.mem_iff.2 (by simpa using hn)
    rw [List.mem_append] at hmem
    rcases hmem with hm | hm
    · exact ⟨[], by simp at hm; simp [hm]⟩
    · obtain ⟨nd, hnd, hc⟩ := List.mem_flatMap.1 hm
      obtain ⟨j, hj, rfl⟩ := List.getElem_of_mem hnd
      cases hj' : nodes[j] with
      | leaf s w => rw [hj'] at hc; simp [childIndices] at hc
      | internal w l r =>
        have hget : nodes[j]? = some (.internal w l r) := by rw [List.getElem?_eq_getElem hj, hj']
        obtain ⟨-, hl, hr, -⟩ := hf.children hget
        rw [hj'] at hc
        simp only [childIndices, List.mem_cons, List.not_mem_nil, or_false] at hc
        obtain ⟨p, hp⟩ := hf.reach hlen d j hj (by omega)
        obtain ⟨m, hm', hmj⟩ := Option.map_eq_some_iff.1 hp
        subst hmj
        rcases hc with rfl | rfl
        · exact ⟨p ++ [false], by simp [descend_append, hm', descend_internal hget]⟩
        · exact ⟨p ++ [true], by simp [descend_append, hm', descend_internal hget]⟩

/-- A child belongs to one node, on one side (R32). -/
theorem Forest.parent_unique (hf : Forest ft nodes roots) {i j : Nat} {w l r w' l' r' : Word} {b b' : Bool}
    (hi : nodes[i]? = some (.internal w l r)) (hj : nodes[j]? = some (.internal w' l' r'))
    (he : (if b then r else l).toNat = (if b' then r' else l').toNat) : i = j ∧ b = b' := by
  have hnd : (nodes.flatMap childIndices).Nodup :=
    (List.nodup_append.1 (hf.owned.nodup_iff.2 List.nodup_range)).2.1
  rw [List.nodup_flatMap] at hnd
  obtain ⟨hin, hdis⟩ := hnd
  obtain ⟨hil, hie⟩ := List.getElem?_eq_some_iff.1 hi
  obtain ⟨hjl, hje⟩ := List.getElem?_eq_some_iff.1 hj
  have mi : ∀ c : Bool, (if c then r else l).toNat ∈ childIndices nodes[i] := by
    intro c; rw [hie]; cases c <;> simp [childIndices]
  have mj : ∀ c : Bool, (if c then r' else l').toNat ∈ childIndices nodes[j] := by
    intro c; rw [hje]; cases c <;> simp [childIndices]
  have hij : i = j := by
    rw [List.pairwise_iff_getElem] at hdis
    rcases Nat.lt_trichotomy i j with h | h | h
    · exact absurd (he ▸ mj b') (fun hm => hdis i j hil hjl h (mi b) hm)
    · exact h
    · exact absurd (he ▸ mi b) (fun hm => hdis j i hjl hil h (mj b') (he ▸ mi b))
  subst hij
  refine ⟨rfl, ?_⟩
  rw [hi] at hj
  cases hj
  have hne : l.toNat ≠ r.toNat := by
    have := hin _ (List.getElem_mem hil)
    rw [hie] at this
    simpa [childIndices] using this
  cases b <;> cases b' <;> simp_all

/-- A root is nobody's child (R32). -/
theorem Forest.root_not_child (hf : Forest ft nodes roots) {i : Nat} {w l r n : Word} {b : Bool} (hn : n ∈ roots)
    (hi : nodes[i]? = some (.internal w l r)) : (if b then r else l).toNat ≠ n.toNat := by
  intro he
  have hnd := hf.owned.nodup_iff.2 List.nodup_range
  obtain ⟨hil, hie⟩ := List.getElem?_eq_some_iff.1 hi
  refine (List.nodup_append.1 hnd).2.2 n.toNat (List.mem_map_of_mem hn) n.toNat ?_ rfl
  refine List.mem_flatMap.2 ⟨nodes[i], List.getElem_mem hil, ?_⟩
  rw [hie, ← he]; cases b <;> simp [childIndices]

/-- In a tree, a node is on only one path from the root (R136). -/
theorem Forest.path_unique {root : Word} (hf : Forest ft nodes [root]) : ∀ (len : Nat) (p q : BitString) (m : Word),
    p.length = len → descend nodes root p = some m → descend nodes root q = some m → p = q
  | 0, p, q, m, hl, hp, hq => by
    obtain rfl := List.length_eq_zero_iff.1 hl
    rcases List.eq_nil_or_concat q with rfl | ⟨q, b, rfl⟩
    · rfl
    · simp only [descend_nil, Option.some.injEq] at hp
      subst hp
      rw [List.concat_eq_append, descend_append] at hq
      obtain ⟨x, hx, hxm⟩ := Option.bind_eq_some_iff.1 hq
      obtain ⟨w, l, r, hn, hd⟩ := descend_cons hxm
      simp only [descend_nil, Option.some.injEq] at hd
      exact absurd (congrArg BitVec.toNat hd) (hf.root_not_child (by simp) hn)
  | len + 1, p, q, m, hl, hp, hq => by
    rcases List.eq_nil_or_concat p with rfl | ⟨p, b, rfl⟩
    · simp at hl
    · rw [List.concat_eq_append, descend_append] at hp
      obtain ⟨x, hx, hxm⟩ := Option.bind_eq_some_iff.1 hp
      obtain ⟨w, l, r, hn, hd⟩ := descend_cons hxm
      simp only [descend_nil, Option.some.injEq] at hd
      rcases List.eq_nil_or_concat q with rfl | ⟨q, b', rfl⟩
      · simp only [descend_nil, Option.some.injEq] at hq
        subst hq
        exact absurd (congrArg BitVec.toNat hd) (hf.root_not_child (by simp) hn)
      · rw [List.concat_eq_append, descend_append] at hq
        obtain ⟨y, hy, hym⟩ := Option.bind_eq_some_iff.1 hq
        obtain ⟨w', l', r', hn', hd'⟩ := descend_cons hym
        simp only [descend_nil, Option.some.injEq] at hd'
        obtain ⟨hxy, rfl⟩ := hf.parent_unique (b := b) (b' := b') hn hn' (by rw [hd, hd'])
        have hxy : x = y := BitVec.eq_of_toNat_eq hxy
        subst hxy
        have := hf.path_unique len p q x (by simpa using hl) hx hy
        rw [this]

/-! ### The walk -/

@[simp] theorem walk_length (nodes : List Node) : ∀ (fuel : Nat) (n : Word) (p : BitString) (code : List BitString),
    (walk nodes fuel n p code).length = code.length
  | 0, _, _, _ => rfl
  | fuel + 1, n, p, code => by
    unfold walk
    split
    · rfl
    · simp
    · rw [walk_length nodes fuel, walk_length nodes fuel]

/-- What the walk from n leaves in the slot of a leaf (R151): the path so far and the path from n to the leaf, where there is
one; else what stood there. -/
theorem walk_slot (hf : Forest ft nodes roots) : ∀ (fuel : Nat) (n : Word) (p : BitString) (code : List BitString)
    (i : Nat), n.toNat < fuel → i < ft.length → i < code.length →
    (∃ q, (descend nodes n q).map BitVec.toNat = some i ∧ (walk nodes fuel n p code)[i]? = some (p ++ q)) ∨
    ((∀ q, (descend nodes n q).map BitVec.toNat ≠ some i) ∧ (walk nodes fuel n p code)[i]? = code[i]?)
  | 0, n, p, code, i, h, _, _ => absurd h (Nat.not_lt_zero _)
  | fuel + 1, n, p, code, i, hn, hi, hic => by
    unfold walk
    split
    · rename_i hnone
      have hni : n.toNat ≠ i := by
        intro e; rw [e, hf.leaf hi] at hnone; cases hnone
      refine .inr ⟨?_, rfl⟩
      rintro (_ | ⟨b, q⟩) hq
      · simp at hq; exact hni hq
      · simp [descend, hnone] at hq
    · rename_i s w hleaf
      by_cases hni : n.toNat = i
      · subst hni
        exact .inl ⟨[], by simp, by simp [hic]⟩
      · refine .inr ⟨?_, by rw [List.getElem?_set_ne hni]⟩
        rintro (_ | ⟨b, q⟩) hq
        · simp at hq; exact hni hq
        · simp [descend_leaf hleaf] at hq
    · rename_i w l r hint
      obtain ⟨hk, hl, hr, -⟩ := hf.children hint
      have hni : n.toNat ≠ i := by omega
      have step : ∀ (b : Bool) (q : BitString),
          descend nodes n (b :: q) = descend nodes (if b then r else l) q := descend_internal hint
      rcases walk_slot hf fuel r (p ++ [true]) (walk nodes fuel l (p ++ [false]) code) i (by omega) hi (by simpa using hic)
        with ⟨q, h1, h2⟩ | ⟨hno, h2⟩
      · exact .inl ⟨true :: q, by rw [step]; exact h1, by rw [h2]; simp⟩
      · rcases walk_slot hf fuel l (p ++ [false]) code i (by omega) hi hic with ⟨q, h3, h4⟩ | ⟨hno', h4⟩
        · exact .inl ⟨false :: q, by rw [step]; exact h3, by rw [h2, h4]; simp⟩
        · refine .inr ⟨?_, by rw [h2, h4]⟩
          rintro (_ | ⟨b, q⟩) hq
          · simp at hq; exact hni hq
          · rw [step] at hq
            cases b
            · exact hno' q hq
            · exact hno q hq

/-- The codes of a tree: for each slot a path from the root to its leaf (R151). -/
theorem walk_codes {root : Word} (hf : Forest ft nodes [root]) (hlen : nodes.length ≤ 2 ^ 32) (code : List BitString)
    (hcode : code.length = ft.length) {i : Nat} (hi : i < ft.length) :
    ∃ q, (walk nodes nodes.length root [] code)[i]? = some q ∧ (descend nodes root q).map BitVec.toNat = some i := by
  rcases walk_slot hf nodes.length root [] code i (hf.root_lt (by simp)) hi (by omega) with ⟨q, h1, h2⟩ | ⟨hno, -⟩
  · exact ⟨q, by simpa using h2, h1⟩
  · obtain ⟨p, hp⟩ := hf.reach hlen _ i (Nat.lt_of_lt_of_le hi hf.leaf_le) (Nat.le_refl _)
    exact absurd hp (hno p)

end Sys2Proof.Machine
end

