-- ==== Sys2Proof/Laws/Inv.lean ====
section
/-! SUPPORT. What a well-formed state gives the later proofs (10_state.md R39): the bounds of its table, its queue, its
tree. -/

namespace Sys2Proof.Machine

variable {s t : State}

/-- The frequencies of a well-formed table sum below 2^32 (R31). -/
theorem State.Inv.total_lt (h : s.Inv) : (s.ft.map (fun e => e.freq.toNat)).sum < 2 ^ 32 := by
  rw [← h.total]; exact s.totalW.isLt

/-- A well-formed table has at most 2^16 entries (R7). -/
theorem State.Inv.table_le (h : s.Inv) : s.ft.length ≤ 2 ^ 16 := by
  have h1 := h.capacity
  have h2 := h.legal
  simp [Params.legal] at h2
  unfold State.k at h1
  omega

/-- In phase QUEUED the queue is one the merges can run on (R39). -/
theorem State.Inv.queueOk (h : s.Inv) (hp : s.phase = .queued) : QueueOk s.ft s.nodes s.heap := by
  have := h.phaseOk
  simp only [PhaseOk, hp] at this
  exact ⟨this.1.forest, this.1.ordered, this.1.counts, h.table_le, h.total_lt⟩

/-- In phases TREE and CODED the tree is complete (R39). -/
theorem State.Inv.treeDone (h : s.Inv) (hp : s.phase = .tree ∨ s.phase = .coded) : TreeDone s := by
  have := h.phaseOk
  rcases hp with hp | hp <;> simp only [PhaseOk, hp] at this <;> exact this.1

/-- In phase CODED the codes are the paths (R150). -/
theorem State.Inv.codesValid (h : s.Inv) (hp : s.phase = .coded) : CodesValid s := by
  have := h.phaseOk
  simp only [PhaseOk, hp] at this
  exact this.2

/-- The arena of a complete tree fits the node indices (R8). -/
theorem State.Inv.nodes_le (h : s.Inv) (hd : TreeDone s) : s.nodes.length ≤ 2 ^ 32 := by
  have h1 := hd.nodeCount
  have h2 := h.table_le
  simp only [State.nodeCount, State.k] at h1
  omega

theorem Loading.congr (h : Loading s) (hn : t.nodes = s.nodes) (hh : t.heap = s.heap) (hr : t.root = s.root) :
    Loading t := ⟨hn.trans h.nodes, hh.trans h.heap, hr.trans h.root⟩

theorem Queued.congr (h : Queued s) (hf : t.ft = s.ft) (hn : t.nodes = s.nodes) (hh : t.heap = s.heap)
    (hr : t.root = s.root) : Queued t where
  alphabet := by have := h.alphabet; simpa [State.k, hf] using this
  leaves := by have := h.leaves; simpa [State.k, State.nodeCount, hf, hn] using this
  queue := by have := h.queue; simpa [State.pqCount, hh] using this
  counts := by have := h.counts; simpa [State.k, State.nodeCount, State.pqCount, hf, hn, hh] using this
  root := hr.trans h.root
  ordered := by rw [hn, hh]; exact h.ordered
  forest := by rw [hf, hn, hh]; exact h.forest

theorem TreeDone.congr (h : TreeDone s) (hf : t.ft = s.ft) (hn : t.nodes = s.nodes) (hh : t.heap = s.heap)
    (hr : t.root = s.root) : TreeDone t where
  alphabet := by have := h.alphabet; simpa [State.k, hf] using this
  nodeCount := by have := h.nodeCount; simpa [State.k, State.nodeCount, hf, hn] using this
  queue := hh.trans h.queue
  root := by have := h.root; simpa [State.k, hf, hr] using this
  forest := by rw [hf, hn, hr]; exact h.forest

theorem CodesValid.congr (h : CodesValid s) (hf : t.ft = s.ft) (hn : t.nodes = s.nodes) (hr : t.root = s.root)
    (hc : t.code = s.code) : CodesValid t := by
  simpa [CodesValid, State.k, codeAt, hf, hn, hr, hc] using h

/-- A state that differs only in what R39 does not speak of is as well formed: the query commands, the failing commands and
the host's accesses all lead to such a state. -/
theorem State.Inv.congr (h : s.Inv) (hpar : t.params = s.params) (hf : t.ft = s.ft) (hw : t.totalW = s.totalW)
    (hn : t.nodes = s.nodes) (hh : t.heap = s.heap) (hr : t.root = s.root) (hc : t.code = s.code) (ho : t.out = s.out)
    (hp : t.phase = s.phase) (hl : t.last = .ok ∨ t.sticky = true) : t.Inv where
  legal := by rw [hpar]; exact h.legal
  capacity := by have := h.capacity; simpa [State.k, hpar, hf] using this
  positive := by rw [hf]; exact h.positive
  unique := by rw [hf]; exact h.unique
  total := by rw [hf, hw]; exact h.total
  outFits := by have := h.outFits; simpa [State.outLen, hpar, ho] using this
  noted := hl
  phaseOk := by
    have i := h.phaseOk
    unfold PhaseOk at i ⊢
    rw [hp, hc, ho]
    cases hps : s.phase <;> simp only [hps] at i ⊢
    · exact ⟨i.1.congr hn hh hr, i.2⟩
    · exact ⟨i.1.congr hf hn hh hr, i.2⟩
    · exact ⟨i.1.congr hf hn hh hr, i.2⟩
    · exact ⟨i.1.congr hf hn hh hr, i.2.congr hf hn hr hc⟩

end Sys2Proof.Machine
end

