-- ==== Sys2Proof/Laws/Operands.lean ====
section
/-! SUPPORT. Operand forms: packed bits (20_memory.md R65), Lookup (41_frequency_table.md R121), and the fields of a command
word (30_encoding.md R70). -/

namespace Sys2Proof.Machine

/-- A sum of bits weighted by powers of two has those bits. -/
theorem testBit_sum_bits (f : Nat → Bool) : ∀ (n b : Nat),
    (((List.range n).map (fun i => (if f i then 1 else 0) * 2 ^ i)).sum).testBit b = (decide (b < n) && f b)
  | 0, b => by simp
  | n + 1, b => by
    have ih := testBit_sum_bits f n
    have hlt : ((List.range n).map (fun i => (if f i then 1 else 0) * 2 ^ i)).sum < 2 ^ n := by
      refine Nat.lt_pow_two_of_testBit _ (fun i hi => ?_)
      rw [ih]; simp [Nat.not_lt.2 hi]
    rw [List.range_succ, List.map_append, List.sum_append, List.map_singleton, List.sum_singleton, Nat.add_comm]
    rcases Nat.lt_trichotomy b n with hb | rfl | hb
    · have e : ((if f n then 1 else 0) * 2 ^ n + ((List.range n).map (fun i => (if f i then 1 else 0) * 2 ^ i)).sum).testBit b
          = (((List.range n).map (fun i => (if f i then 1 else 0) * 2 ^ i)).sum).testBit b := by
        rw [Nat.mul_comm]
        exact Nat.testBit_two_pow_mul_add _ hlt b |>.trans (by simp [hb])
      rw [e, ih]; simp [hb, Nat.lt_succ_of_lt hb]
    · rw [Nat.mul_comm, Nat.testBit_two_pow_mul_add _ hlt]
      cases f b <;> simp
    · rw [Nat.mul_comm, Nat.testBit_two_pow_mul_add _ hlt]
      have h1 : ¬ b < n := by omega
      have h2 : ¬ b < n + 1 := by omega
      have h3 : b - n ≠ 0 := by omega
      have h4 : Nat.testBit 1 (b - n) = false := by
        rw [Bool.eq_false_iff]; simpa [Nat.testBit_one_eq_true_iff_self_eq_zero] using h3
      cases f n <;> simp [h1, h2, h4]

/-- The bits of a packed word (R65): string bit 32j + b, and 0 at or past the end. -/
theorem pack_getLsbD (p : BitString) (j b : Nat) (hb : b < 32) : (pack p j).getLsbD b = (p[32 * j + b]?).getD false := by
  unfold pack packedBit
  rw [BitVec.getLsbD_ofNat, testBit_sum_bits (fun b => (p[32 * j + b]?).getD false)]
  simp [hb]

/-! ### Lookup -/

/-- Lookup fails exactly on a symbol that is not loaded. -/
theorem lookup_eq_none (ft : List FtEntry) (sym : Symbol) : lookup ft sym = none ↔ ∀ e ∈ ft, e.sym ≠ sym := by
  simp [lookup, List.findIdx?_eq_none_iff]

/-- A slot Lookup finds is valid and holds the symbol. -/
theorem lookup_some {ft : List FtEntry} {sym : Symbol} {i : Nat} (h : lookup ft sym = some i) :
    ∃ e, ft[i]? = some e ∧ e.sym = sym := by
  unfold lookup at h
  obtain ⟨hi, hp, -⟩ := List.findIdx?_eq_some_iff_getElem.1 h
  exact ⟨ft[i], List.getElem?_eq_getElem hi, by simpa using hp⟩

theorem lookup_isSome_of_mem {ft : List FtEntry} {e : FtEntry} (h : e ∈ ft) : ∃ i, lookup ft e.sym = some i := by
  cases hl : lookup ft e.sym with
  | none => exact absurd rfl ((lookup_eq_none _ _).1 hl e h)
  | some i => exact ⟨i, rfl⟩

end Sys2Proof.Machine

namespace Sys2Proof

/-! ### Fields of a command word -/

theorem splitWord_joinWord (c : CommandWord) : splitWord (joinWord c) = c := by
  obtain ⟨o, r, s⟩ := c
  simp only [splitWord, joinWord, CommandWord.mk.injEq]
  refine ⟨?_, ?_, ?_⟩ <;> ext i hi <;> simp only [BitVec.getElem_extractLsb'] <;> grind

theorem joinWord_splitWord (w : Word) : joinWord (splitWord w) = w := by
  ext i hi
  simp only [joinWord, splitWord]
  grind

/-- The bytes of a register, put together again (R52). -/
theorem wordOfBytes_bytesOfWord (w : Word) :
    wordOfBytes (w.extractLsb' 0 8) (w.extractLsb' 8 8) (w.extractLsb' 16 8) (w.extractLsb' 24 8) = w := by
  ext i hi
  simp only [wordOfBytes]
  grind

end Sys2Proof
end

