-- ==== Sys2Proof/Laws/PerInstr.lean ====
section
/-! SUPPORT. The statements made for every instruction, one lemma per constructor (30_encoding.md R73 to R76): each command's
row is an assigned opcode with its reserved fields zero. -/

namespace Sys2Proof.Laws.FieldsWellFormed

/-- The word of the instruction passes every check of `CommandWord.wellFormed`. -/
def Statement (i : Instr) : Prop := i.wellFormed = true

theorem nop : Statement .nop := by rfl

theorem clear : Statement .clear := by rfl

theorem errAck : Statement .errAck := by rfl

theorem outClear : Statement .outClear := by rfl

theorem ftAdd (sym : Symbol) : Statement (.ftAdd sym) := by rfl

theorem ftRead : Statement .ftRead := by rfl

theorem treeInit : Statement .treeInit := by rfl

theorem treeStep : Statement .treeStep := by rfl

theorem treeFinish : Statement .treeFinish := by rfl

theorem treeBuild : Statement .treeBuild := by rfl

theorem nodeRead : Statement .nodeRead := by rfl

theorem pqPeek : Statement .pqPeek := by rfl

theorem heapRead : Statement .heapRead := by rfl

theorem codesBuild : Statement .codesBuild := by rfl

theorem codeLen (sym : Symbol) : Statement (.codeLen sym) := by rfl

theorem codeWord (sym : Symbol) : Statement (.codeWord sym) := by rfl

theorem encode (sym : Symbol) : Statement (.encode sym) := by rfl

theorem outRead : Statement .outRead := by rfl

end Sys2Proof.Laws.FieldsWellFormed
end

