-- ==== Sys2Proof/Tests/Slice0.lean ====
section
/-! SUPPORT. The model's own tests. Every expected value is written out from the spec: the vectors of 95_test_vectors.md
(V-ENC, V-REG, V-PQ, V-FT, V-TREE, V-CODE, V-OUT, V-SYS) and the rules named. The witnesses at the end meet the hypotheses
of the obligations, clause by clause. -/

namespace Sys2Proof.Tests

open Sys2Proof.Machine

/-! ### Helpers -/

/-- The instance of the tests: the default capacities (R7), the window at 0x40000000. -/
def platform : Params := { maxSyms := 256, outCap := 65536, huffBase := 0x40000000 }

def fresh : State := State.atReset platform HostEnv.start

/-- The state a command leaves. -/
def after (i : Instr) (s : State) : State :=
  match exec i s with
  | .next t => t
  | .fault _ => s
  | .refused _ => s

/-- The state a command leaves when the host wrote ARG first. -/
def afterArg (i : Instr) (a : Word) (s : State) : State := after i { s with arg := a }

/-- The state a step leaves. -/
def moved (s : State) : State :=
  match step s with
  | .next t => t
  | .fault _ => s
  | .refused _ => s

def refusal (s : State) : Option Refusal :=
  match step s with
  | .next _ => none
  | .fault _ => none
  | .refused r => some r

/-- A table loaded entry by entry. -/
def loaded (p : Params) (t : List (Symbol × Word)) : State :=
  t.foldl (fun s e => afterArg (.ftAdd e.1) e.2 s) (State.atReset p HostEnv.start)

/-- The host's program and the schedule. -/
def withHost (s : State) (ops : List HostOp) (turns : List Agent) : State :=
  { s with env := { s.env with ops := ops, turns := turns } }

def wr (off : Nat) (v : Word) : HostOp := .write (0x40000000 + off) 4 v

def rd (off : Nat) : HostOp := .read (0x40000000 + off) 4

theorem exec_after (i : Instr) (s : State) : exec i s = .next (after i s) := by
  rcases exec_ends i s with ⟨c, -, -, h⟩ | ⟨u, h, -⟩ <;> simp [after, h]

/-- T1 = "AAAA", T2 = "AAAB", T4 = "ABCD" and T3 of the spec, loaded in order of first occurrence. -/
def t1 : State := loaded platform [(0x41#16, 4#32)]

def t2 : State := loaded platform [(0x41#16, 3#32), (0x42#16, 1#32)]

def t4 : State := loaded platform [(0x41#16, 1#32), (0x42#16, 1#32), (0x43#16, 1#32), (0x44#16, 1#32)]

def t3 : State := loaded platform [(0x41#16, 10#32), (0x44#16, 5#32), (0x42#16, 9#32), (0x43#16, 6#32), (0x45#16, 2#32)]

/-- Phases QUEUED, TREE and CODED of a loaded table. -/
def queued (s : State) : State := after .treeInit s

def built (s : State) : State := after .treeBuild s

def coded (s : State) : State := after .codesBuild (built s)

/-! ### What is well formed -/

theorem test_wellFormed_accepts : (CommandWord.mk 0x10#8 0#8 0x41#16).wellFormed = true := by decide

/-- R75: 0x04 is a reserved opcode. -/
theorem test_wellFormed_refuses_opcode :
    (CommandWord.mk 0x04#8 0#8 0#16).opcodeAssigned = false ∧ (CommandWord.mk 0x04#8 0#8 0#16).wellFormed = false := by decide

/-- R76: RSV is not zero (V-ENC-6). -/
theorem test_wellFormed_refuses_reserved :
    (CommandWord.mk 0x10#8 0xFF#8 0x41#16).reservedZero = false ∧
      (CommandWord.mk 0x10#8 0xFF#8 0x41#16).wellFormed = false := by decide

/-- R76: SYM is not zero on OUT_READ (V-ENC-9). -/
theorem test_wellFormed_refuses_symbol :
    (CommandWord.mk 0x41#8 0#8 1#16).symbolAllowed = false ∧ (CommandWord.mk 0x41#8 0#8 1#16).wellFormed = false := by decide

/-- R51: an 8-bit read, a read past the window, one below it, a misaligned one (V-REG-5); each check by itself. -/
theorem test_wellFormed_refuses_access :
    accessWidthOk 1 = false ∧ accessInWindow platform 0x40000080 = false ∧ accessInWindow platform 0x3FFFFFFC = false ∧
      accessAligned platform 0x40000012 = false ∧ HostOp.wellFormed platform (.read 0x40000010 1) = false ∧
      HostOp.wellFormed platform (.write 0x40000080 4 0#32) = false ∧
      HostOp.wellFormed platform (.check 0x40000012 4 0#32) = false ∧ HostOp.wellFormed platform (rd 0x7C) = true := by decide

/-- R7: the legal ranges, at and past their ends. -/
theorem test_params_legal :
    (Params.mk 2 1 0).legal = true ∧ (Params.mk 65536 0xFFFFFFFF 0).legal = true ∧ (Params.mk 1 1 0).legal = false ∧
      (Params.mk 65537 1 0).legal = false ∧ (Params.mk 2 0 0).legal = false ∧ (Params.mk 2 0x100000000 0).legal = false := by
  decide

/-! ### Decoding: words written out from R70 and R73 -/

theorem test_decode_control :
    decodeTableWord 32 0b00000000_00000000_00000000_00000000 = some .nop ∧
    decodeTableWord 32 0b00000001_00000000_00000000_00000000 = some .clear ∧
    decodeTableWord 32 0b00000010_00000000_00000000_00000000 = some .errAck ∧
    decodeTableWord 32 0b00000011_00000000_00000000_00000000 = some .outClear := by decide

theorem test_decode_frequency_table :
    decodeTableWord 32 0b00010000_00000000_00000000_01000001 = some (.ftAdd 0x41#16) ∧
    decodeTableWord 32 0b00010000_00000000_11111111_11111111 = some (.ftAdd 0xFFFF#16) ∧
    decodeTableWord 32 0b00010001_00000000_00000000_00000000 = some .ftRead := by decide

theorem test_decode_tree_builder :
    decodeTableWord 32 0b00100000_00000000_00000000_00000000 = some .treeInit ∧
    decodeTableWord 32 0b00100001_00000000_00000000_00000000 = some .treeStep ∧
    decodeTableWord 32 0b00100010_00000000_00000000_00000000 = some .treeFinish ∧
    decodeTableWord 32 0b00100011_00000000_00000000_00000000 = some .treeBuild ∧
    decodeTableWord 32 0b00100100_00000000_00000000_00000000 = some .nodeRead := by decide

theorem test_decode_priority_queue :
    decodeTableWord 32 0b00101000_00000000_00000000_00000000 = some .pqPeek ∧
    decodeTableWord 32 0b00101001_00000000_00000000_00000000 = some .heapRead := by decide

theorem test_decode_code_table :
    decodeTableWord 32 0b00110000_00000000_00000000_00000000 = some .codesBuild ∧
    decodeTableWord 32 0b00110001_00000000_00000000_01000001 = some (.codeLen 0x41#16) ∧
    decodeTableWord 32 0b00110010_00000000_00000000_01000100 = some (.codeWord 0x44#16) := by decide

theorem test_decode_encoder :
    decodeTableWord 32 0b01000000_00000000_00000000_01000001 = some (.encode 0x41#16) ∧
    decodeTableWord 32 0b01000001_00000000_00000000_00000000 = some .outRead := by decide

/-- V-ENC-2, 3, 6, 7, 8, 9, 12. -/
theorem test_decode_illegal :
    [0x00000001, 0x00010000, 0x10FF0041, 0x04000000, 0x25000000, 0x2A000000, 0x33000000, 0x42000000, 0xFF000000, 0x41000001,
      0xFFFFFFFF].map (decodeTableWord 32) = List.replicate 11 none := by decide

/-- The words of the bus operations in the spec's programs, and the bytes of R52. -/
theorem test_encode :
    encode (.ftAdd 0x41#16) = 0x10000041#32 ∧ encode (.codeWord 0x44#16) = 0x32000044#32 ∧
    encode .treeBuild = 0x23000000#32 ∧ encodeBytes (.ftAdd 0x41#16) = [0x41#8, 0x00#8, 0x00#8, 0x10#8] := by decide

theorem test_decodeBytes_short : decodeBytes [0x41#8, 0x00#8, 0x00#8] = .error .truncated := by rfl

/-! ### Control commands (V-SYS) -/

/-- V-SYS-1. -/
theorem test_nop_keeps_sticky : statusWord (after .nop (after (.codeLen 0x5A#16) (coded t2))) = 0x00000032#32 := by decide

/-- V-SYS-2. -/
theorem test_clear_discards_job :
    (regContent (after .clear (coded t2)) .status, regContent (after .clear (coded t2)) .alphaK,
      regContent (after .clear (coded t2)) .nodeCount, regContent (after .clear (coded t2)) .root,
      regContent (after .clear (coded t2)) .totalW) = (0#32, 0#32, 0#32, 0xFFFFFFFF#32, 0#32) := by decide

/-- V-SYS-3. -/
theorem test_clear_keeps_sticky : statusWord (after .clear (after (.codeLen 0x5A#16) (coded t2))) = 0x00000002#32 := by decide

/-- V-SYS-4. -/
theorem test_errAck :
    statusWord { coded t2 with last := .sequence, sticky := true, overrun := true } = 0x00001136#32 ∧
      statusWord (after .errAck { coded t2 with last := .sequence, sticky := true, overrun := true }) = 0x00000030#32 := by
  decide

/-- V-SYS-5: an illegal ERR_ACK word clears nothing. -/
theorem test_illegal_errAck :
    statusWord (moved { coded t2 with sticky := true, pending := some 0x02000001#32 }) = 0x00001032#32 := by decide

/-- V-ENC-13. -/
theorem test_illegal_command :
    moved { coded t2 with pending := some 0x10010041#32 } = { coded t2 with last := .illegalCommand, sticky := true } ∧
      statusWord (moved { coded t2 with pending := some 0x10010041#32 }) = 0x00001032#32 := by decide

/-! ### Frequency table (V-FT) -/

/-- V-FT-1. -/
theorem test_ftAdd : t2.ft = [⟨0x41#16, 3#32⟩, ⟨0x42#16, 1#32⟩] ∧ t2.totalW = 4#32 ∧ statusWord t2 = 0#32 := by decide

/-- V-FT-4, 6, 7, 9: which check comes first, and the bound of the sum. -/
theorem test_ftAdd_checks :
    statusWord (afterArg (.ftAdd 0x41#16) 0#32 (loaded platform [(0x41#16, 3#32)])) = 0x00001202#32 ∧
    statusWord (afterArg (.ftAdd 0x42#16) 1#32 (loaded ⟨2, 8, 0⟩ [(0x41#16, 1#32), (0x42#16, 1#32)])) = 0x00001302#32 ∧
    statusWord (afterArg (.ftAdd 0x43#16) 1#32 (loaded ⟨2, 8, 0⟩ [(0x41#16, 1#32), (0x42#16, 1#32)])) = 0x00001402#32 ∧
    statusWord (afterArg (.ftAdd 0x42#16) 1#32 (loaded platform [(0x41#16, 0xFFFFFFFF#32)])) = 0x00001502#32 ∧
    statusWord (afterArg (.ftAdd 0x41#16) 0#32 (coded t2)) = 0x00001132#32 := by decide

/-- V-FT-12. -/
theorem test_ftRead : (afterArg .ftRead 1#32 (coded t2)).res0 = 1#32 ∧ (afterArg .ftRead 1#32 (coded t2)).res1 = 0x42#32 := by
  decide

/-- V-FT-11. -/
theorem test_ftRead_range : statusWord (afterArg .ftRead 2#32 t2) = 0x00001702#32 := by decide

/-! ### Priority queue (V-PQ) -/

/-- V-PQ-1. -/
theorem test_treeInit_heap : (queued t3).heap = [4#32, 1#32, 2#32, 0#32, 3#32] := by decide

/-- V-PQ-4: an equal weight does not move above its parent. -/
theorem test_treeInit_ties :
    (queued (loaded platform [(0x41#16, 5#32), (0x42#16, 2#32), (0x52#16, 2#32), (0x43#16, 1#32), (0x44#16, 1#32)])).heap =
      [3#32, 4#32, 2#32, 0#32, 1#32] := by decide

/-- V-PQ-5. -/
theorem test_pqPeek :
    (after .pqPeek (queued t2)).res0 = 1#32 ∧ (after .pqPeek (queued t2)).res1 = 1#32 ∧
      statusWord (after .pqPeek (queued t2)) = 0x00000010#32 := by decide

theorem test_pqPeek_empty :
    statusWord (after .pqPeek fresh) = 0x00000202#32 ∧ statusWord (after .pqPeek (built t2)) = 0x00000222#32 := by decide

/-- V-PQ-1, the reads. -/
theorem test_heapRead :
    (afterArg .heapRead 3#32 (queued t3)).res0 = 0#32 ∧ (afterArg .heapRead 3#32 (queued t3)).res1 = 10#32 := by decide

/-- V-PQ-6. -/
theorem test_heapRead_range :
    statusWord (afterArg .heapRead 5#32 (queued t3)) = 0x00001712#32 ∧
      statusWord (afterArg .heapRead 0xFFFFFFFF#32 (queued t3)) = 0x00001712#32 := by decide

/-! ### Tree builder (V-TREE) -/

/-- V-TREE-3, its first merge; V-PQ-2. -/
theorem test_treeStep :
    (after .treeStep (queued t3)).nodes[5]? = some (.internal 7#32 4#32 1#32) ∧
      (after .treeStep (queued t3)).heap = [3#32, 5#32, 2#32, 0#32] := by decide

/-- V-TREE-4: the order among equal weights. -/
theorem test_treeStep_ties :
    (after .treeStep (queued t4)).nodes[4]? = some (.internal 2#32 0#32 3#32) ∧
      (after .treeStep (queued t4)).heap = [2#32, 1#32, 4#32] := by decide

/-- E1: one symbol. -/
theorem test_treeFinish :
    (after .treeFinish (queued t1)).root = 0#32 ∧ (after .treeFinish (queued t1)).heap = [] ∧
      statusWord (after .treeStep (queued t1)) = 0x00000212#32 := by decide

/-- V-TREE-7. -/
theorem test_treeFinish_early : statusWord (after .treeFinish (queued t4)) = 0x00001112#32 := by decide

/-- V-TREE-3. -/
theorem test_treeBuild :
    (built t3).nodes.drop 5 = [.internal 7#32 4#32 1#32, .internal 13#32 3#32 5#32, .internal 19#32 2#32 0#32,
      .internal 32#32 6#32 7#32] ∧ (built t3).root = 8#32 ∧ (built t3).heap = [] := by decide

/-- E4, and V-TREE-10: the sum at its bound. -/
theorem test_treeBuild_ends :
    statusWord (after .treeBuild fresh) = 0x00000102#32 ∧
      (built (loaded platform [(0x41#16, 0xFFFFFFFE#32), (0x42#16, 1#32)])).nodes[2]? =
        some (.internal 0xFFFFFFFF#32 1#32 0#32) := by decide

/-- V-TREE-9. -/
theorem test_nodeRead_leaf :
    ((afterArg .nodeRead 1#32 (coded t2)).res0, (afterArg .nodeRead 1#32 (coded t2)).res1,
      (afterArg .nodeRead 1#32 (coded t2)).res2, (afterArg .nodeRead 1#32 (coded t2)).res3) =
      (1#32, 0x00420001#32, 0xFFFFFFFF#32, 0xFFFFFFFF#32) := by decide

theorem test_nodeRead_internal :
    ((afterArg .nodeRead 2#32 (coded t2)).res0, (afterArg .nodeRead 2#32 (coded t2)).res1,
      (afterArg .nodeRead 2#32 (coded t2)).res2, (afterArg .nodeRead 2#32 (coded t2)).res3) = (4#32, 0#32, 1#32, 0#32) ∧
      statusWord (afterArg .nodeRead 3#32 (coded t2)) = 0x00001732#32 := by decide

/-! ### Code table (V-CODE) -/

/-- V-CODE-2. -/
theorem test_codesBuild :
    (coded t3).code = [[true, true], [false, true, true], [true, false], [false, false], [false, true, false]] ∧
      statusWord (coded t3) = 0x00000030#32 := by decide

/-- V-CODE-9, V-CODE-10. -/
theorem test_codesBuild_sequence :
    statusWord (after .codesBuild fresh) = 0x00001102#32 ∧ statusWord (after .codesBuild (queued t2)) = 0x00001112#32 := by
  decide

/-- V-CODE-2: D. -/
theorem test_codeLen :
    (after (.codeLen 0x44#16) (coded t3)).res0 = 3#32 ∧ (after (.codeLen 0x44#16) (coded t3)).res1 = 1#32 := by decide

/-- V-CODE-7, V-CODE-12. -/
theorem test_codeLen_errors :
    statusWord (after (.codeLen 0x5A#16) (coded t3)) = 0x00000332#32 ∧
      statusWord (after (.codeLen 0x41#16) (built t2)) = 0x00001122#32 := by decide

/-- V-CODE-2: D is "011". -/
theorem test_codeWord : (afterArg (.codeWord 0x44#16) 0#32 (coded t3)).res0 = 6#32 := by decide

/-- V-CODE-6. -/
theorem test_codeWord_past_end :
    (afterArg (.codeWord 0x44#16) 1#32 (coded t3)).res0 = 0#32 ∧
      (afterArg (.codeWord 0x44#16) 0xFFFFFFFF#32 (coded t3)).res0 = 0#32 := by decide

/-! ### Encoder (V-OUT) -/

/-- "1110", the output of V-OUT-1. -/
def outputT2 : State := { coded t2 with out := [true, true, true, false] }

/-- V-OUT-1, its last symbol; V-OUT-7: an exact fill. -/
theorem test_encode_symbol :
    (after (.encode 0x42#16) { coded t2 with out := [true, true, true] }).out = [true, true, true, false] ∧
      (after (.encode 0x41#16) { coded t2 with params := ⟨2, 4, 0⟩, out := [true, true, true] }).outLen = 4 := by decide

/-- V-OUT-6, V-OUT-8. -/
theorem test_encode_errors :
    statusWord (after (.encode 0x42#16) { coded t2 with params := ⟨2, 3, 0⟩, out := [true, true, true] }) = 0x00001632#32 ∧
      statusWord (after (.encode 0x5A#16) { coded t2 with params := ⟨2, 3, 0⟩, out := [true, true, true] }) = 0x00000332#32 := by
  decide

/-- V-OUT-1. -/
theorem test_outRead : (afterArg .outRead 0#32 outputT2).res0 = 7#32 ∧ (afterArg .outRead 1#32 outputT2).res0 = 0#32 := by decide

/-- V-OUT-13, V-OUT-14. -/
theorem test_outRead_total :
    (afterArg .outRead 0xFFFFFFFF#32 outputT2).res0 = 0#32 ∧ statusWord (afterArg .outRead 0#32 fresh) = 0#32 := by decide

/-- V-OUT-12. -/
theorem test_outClear : (after .outClear outputT2).outLen = 0 ∧ (after .outClear outputT2).phase = .coded := by decide

/-- R65, with the first word of V-OUT-3. -/
theorem test_pack : pack [false, false, true, true, true, false, false, true] 0 = 0x9C#32 := by decide

/-! ### The window, the step and reset (V-REG, V-SYS) -/

/-- V-REG-1. -/
theorem test_registers_at_reset :
    [0x00, 0x04, 0x08, 0x0C, 0x10, 0x14, 0x18, 0x1C, 0x28, 0x2C, 0x30, 0x34, 0x38, 0x3C, 0x40, 0x44, 0x7C].map
        (fun off => regContent fresh (regAt off)) =
      [0x48554643#32, 0x00010000#32, 0x100#32, 0x10000#32, 0#32, 0#32, 0#32, 0#32, 0#32, 0#32, 0#32, 0#32, 0xFFFFFFFF#32,
        0#32, 0#32, 0#32, 0#32] := by decide

/-- V-REG-2: a write to a read-only or a reserved register. -/
theorem test_write_ignored :
    moved (withHost fresh [wr 0x00 0#32] []) = fresh ∧ moved (withHost fresh [wr 0x44 5#32] []) = fresh := by decide

/-- V-REG-3. -/
theorem test_write_arg : (moved (withHost fresh [wr 0x18 0x12345678#32] [])).arg = 0x12345678#32 := by decide

/-- V-REG-5. -/
theorem test_refused_accesses :
    refusal (withHost fresh [.read 0x40000010 1] []) = some .accessWidth ∧
      refusal (withHost fresh [.read 0x40000012 4] []) = some .accessMisaligned ∧
      refusal (withHost fresh [.read 0x40000080 4] []) = some .accessOutsideWindow := by decide

/-- V-REG-6: STATUS reads BUSY, and ROOT is a draw. -/
theorem test_reads_while_busy :
    statusWord { t3 with pending := some 0x23000000#32 } = 0x00000001#32 ∧
      (moved (withHost { t3 with pending := some 0x23000000#32 } [rd 0x38] [.host])).env.trace =
        [.read 0x38 (Config.freeRead 0)] := by
  refine ⟨by decide, by rfl⟩

/-- The state of V-SYS-6 after its second operation: FT_ADD 'A' pending with ARG 5. -/
def race : State := { fresh with arg := 5#32, pending := some 0x10000041#32 }

/-- V-SYS-6: the next write comes before the core's step and is discarded. -/
theorem test_race_host_first :
    (moved (withHost race [wr 0x18 7#32, wr 0x14 0x10000042#32] [.host])).arg = 5#32 ∧
      (moved (withHost race [wr 0x18 7#32, wr 0x14 0x10000042#32] [.host])).overrun = true ∧
      (moved (withHost race [wr 0x18 7#32, wr 0x14 0x10000042#32] [.host])).pending = some 0x10000041#32 := by decide

/-- V-SYS-6: the core's step comes first. -/
theorem test_race_core_first :
    (moved (withHost race [wr 0x18 7#32, wr 0x14 0x10000042#32] [.core])).ft = [⟨0x41#16, 5#32⟩] ∧
      (moved (withHost race [wr 0x18 7#32, wr 0x14 0x10000042#32] [.core])).pending = none ∧
      (moved (withHost race [wr 0x18 7#32, wr 0x14 0x10000042#32] [.core])).env.ops.length = 2 := by decide

/-- V-SYS-7. -/
theorem test_reset_abandons :
    moved (withHost { t3 with pending := some 0x23000000#32 } [.reset] [.host]) = fresh := by decide

/-- The word the host stores runs next. -/
theorem test_withFetchWord : (step (State.reset.withFetchWord 32 0x23000000)) =
    .next { State.reset with last := .emptyAlphabet, sticky := true } := by rfl

/-- R240: after a CMD write the run has not ended when the core is done, only when a read of STATUS has said so. -/
theorem test_run_ends_on_confirmation :
    let s := moved (moved (withHost fresh [wr 0x14 0#32] []))
    s.env.ops = [] ∧ s.busy = false ∧ s.env.unconfirmed = true ∧
      (moved { s with env := { s.env with ops := [rd 0x10] } }).env.unconfirmed = false := by decide

/-- R240: an explicit read of STATUS belongs to the observed result, BUSY = 1 or not; a wait's poll that found BUSY = 1 does not. -/
theorem test_outcome_keeps_status_reads :
    (outcomeOfRun (moved (withHost fresh [rd 0x10] []))).env.trace = [.read 0x10 0#32] ∧
      (outcomeOfRun (moved (withHost race [rd 0x10] [.host]))).env.trace = [.read 0x10 1#32] ∧
      (moved (withHost race [.wait] [.host])).env.trace = [.poll 1#32] ∧
      (outcomeOfRun (moved (withHost race [.wait] [.host]))).env.trace = [] := by decide

/-! ### HUFFASM (R78, R79) -/

/-- R79: `FT_ADD s, f` and `NOP`. -/
theorem test_expand_command :
    expandOp platform (.command (.ftAdd 0x41#16) (some 3#32)) = [wr 0x18 3#32, wr 0x14 0x10000041#32, .wait] ∧
      expandOp platform (.command .nop none) = [wr 0x14 0#32, .wait] := by decide

/-- R79: LOAD_FREQS "ABA" in order of first occurrence. -/
theorem test_expand_loadFreqs :
    expandOp platform (.loadFreqs [0x41#16, 0x42#16, 0x41#16]) =
      [wr 0x18 2#32, wr 0x14 0x10000041#32, .wait, wr 0x18 1#32, wr 0x14 0x10000042#32, .wait] := by decide

theorem test_parse_command :
    parseLine "FT_ADD 'A', 3 ; load".toList = some [.command (.ftAdd 0x41#16) (some 3#32)] ∧
      parseLine "CODE_WORD 0x44, 1".toList = some [.command (.codeWord 0x44#16) (some 1#32)] := by decide

theorem test_parse_primitives :
    parseProgram "write ARG, 0x12\nread RES0\nwait\n.cmd 0x10010041".toList =
      some [.write 0x18 0x12#32, .read 0x1C, .wait, .cmd 0x10010041#32] ∧ parseLine "FT_ADD 'A'".toList = none := by decide

/-- `;` is data inside a string literal and starts a comment outside it (log entry 13). -/
theorem test_parse_semicolon :
    parseLine "LOAD_FREQS \";\" ; x".toList = some [.loadFreqs [0x3B#16]] := by decide

/-! ### Well-formed states for the witnesses -/

/-- The internal nodes of an arena, checked one by one (R32, R130, R132). -/
def internalsOk (k : Nat) (nodes : List Node) : Bool :=
  (List.range nodes.length).all (fun i =>
    decide (i < k) ||
    (match nodes[i]? with
     | some (.internal w l r) =>
       decide (l.toNat < i) && decide (r.toNat < i) && decide (w.toNat = (weightOf nodes l).toNat + (weightOf nodes r).toNat)
     | some (.leaf _ _) => false
     | none => false))

theorem forest_of_checks {ft : List FtEntry} {nodes : List Node} {roots : List Word} (h1 : nodes.take ft.length = leafNodes ft)
    (h2 : internalsOk ft.length nodes = true)
    (h3 : (roots.map BitVec.toNat ++ nodes.flatMap childIndices).Perm (List.range nodes.length)) : Forest ft nodes roots where
  leaves := h1
  internals i nd hi hnd := by
    have hlt := (List.getElem?_eq_some_iff.1 hnd).1
    have := List.all_eq_true.1 h2 i (by simpa using hlt)
    rw [hnd] at this
    cases nd with
    | leaf s w => simp at this; omega
    | internal w l r =>
      have hk : ¬ i < ft.length := by omega
      simp [hk] at this
      exact ⟨this.1.1, this.1.2, this.2⟩
  owned := h3

theorem fresh_inv : fresh.Inv := by
  refine ⟨by decide, by decide, by decide, by decide, by decide, by decide, .inl rfl, ?_⟩
  exact ⟨⟨rfl, rfl, rfl⟩, rfl, rfl⟩

theorem t2_inv : t2.Inv := by
  refine ⟨by decide, by decide, by decide, by decide, by decide, by decide, .inl (by decide), ?_⟩
  exact ⟨⟨by rfl, by rfl, by rfl⟩, by rfl, by rfl⟩

/-- The largest total weight: 0xFFFFFFFF in two entries. -/
def heavy : State := loaded ⟨2, 1, 0⟩ [(0x0000#16, 0xFFFFFFFE#32), (0xFFFF#16, 1#32)]

theorem heavy_inv : heavy.Inv := by
  refine ⟨by decide, by decide, by decide, by decide, by decide, by decide, .inl (by decide), ?_⟩
  exact ⟨⟨by rfl, by rfl, by rfl⟩, by rfl, by rfl⟩

theorem queuedT2_phase : (queued t2).phase = .queued := by decide

theorem queuedT2_inv : (queued t2).Inv := by
  refine ⟨by decide, by decide, by decide, by decide, by decide, by decide, .inl (by decide), ?_⟩
  simp only [PhaseOk, queuedT2_phase]
  refine ⟨⟨by decide, by decide, by decide, by decide, by decide, ?_, forest_of_checks (by decide) (by decide) (by decide)⟩,
    by decide, by decide⟩
  intro i h0 hi
  have hl : (queued t2).heap.length = 2 := by decide
  obtain rfl : i = 1 := by omega
  decide

theorem lastT2_phase : (after .treeStep (queued t2)).phase = .queued := by decide

theorem lastT2_inv : (after .treeStep (queued t2)).Inv := by
  refine ⟨by decide, by decide, by decide, by decide, by decide, by decide, .inl (by decide), ?_⟩
  simp only [PhaseOk, lastT2_phase]
  refine ⟨⟨by decide, by decide, by decide, by decide, by decide, ?_, forest_of_checks (by decide) (by decide) (by decide)⟩,
    by decide, by decide⟩
  intro i h0 hi
  have hl : (after .treeStep (queued t2)).heap.length = 1 := by decide
  omega

theorem builtT2_phase : (built t2).phase = .tree := by decide

theorem builtT2_inv : (built t2).Inv := by
  refine ⟨by decide, by decide, by decide, by decide, by decide, by decide, .inl (by decide), ?_⟩
  simp only [PhaseOk, builtT2_phase]
  exact ⟨⟨by decide, by decide, by decide, by decide, forest_of_checks (by decide) (by decide) (by decide)⟩, by decide, by decide⟩

theorem codedT2_phase : (coded t2).phase = .coded := by decide

theorem codedT2_inv : (coded t2).Inv := by
  refine ⟨by decide, by decide, by decide, by decide, by decide, by decide, .inl (by decide), ?_⟩
  simp only [PhaseOk, codedT2_phase]
  exact ⟨⟨by decide, by decide, by decide, by decide, forest_of_checks (by decide) (by decide) (by decide)⟩,
    by decide, by decide⟩

/-! ### Witnesses: states and operands that meet the hypotheses of each obligation, clause by clause -/

theorem witness_EncodeOfDecodeIsTheWord : decodeWord 0x10000041#32 = .ok (.ftAdd 0x41#16) ∧ decodeWord 0#32 = .ok .nop := by
  constructor <;> rfl

/-- The words of opcode 0x42 with RSV and SYM at their largest, and of opcode 0. -/
theorem witness_IllegalWordsAreTheReservedOnes :
    (0x42FFFFFF#32).toNat = 0x42 * 2 ^ 24 + 0xFF * 2 ^ 16 + 0xFFFF ∧ 0x42 < 2 ^ 8 ∧ 0xFF < 2 ^ 8 ∧ 0xFFFF < 2 ^ 16 ∧
      (0#32).toNat = 0 * 2 ^ 24 + 0 * 2 ^ 16 + 0 := by decide

/-- A command pending with an operation to come, on the core's turn and on the host's. -/
def busyT2 (turn : Agent) : State := withHost { coded t2 with pending := some 0x40000041#32 } [rd 0x10] [turn]

theorem witness_StepRunsTheDecodedCommand :
    (busyT2 .core).pending = some 0x40000041#32 ∧ mover (busyT2 .core) = .core ∧
      decodeWord 0x40000041#32 = .ok (.encode 0x41#16) := by
  refine ⟨by decide, by decide, by rfl⟩

theorem witness_IllegalCommandChangesOnlyCompletion :
    ({ fresh with pending := some 0x04000000#32 } : State).pending = some 0x04000000#32 ∧
      mover { fresh with pending := some 0x04000000#32 } = .core ∧ decodeWord 0x04000000#32 = .error .reservedOpcode := by
  refine ⟨by decide, by decide, by rfl⟩

theorem witness_BusyAlwaysEnds : (busyT2 .host).busy = true ∧ (busyT2 .core).busy = true := by decide

/-- The three clauses: busy with an operation, busy with none or with no choice left, idle. -/
theorem witness_EitherAgentMayMoveWhileBusy :
    ((busyT2 .host).busy = true ∧ (busyT2 .host).env.ops ≠ []) ∧
      ((withHost race [] [.host]).busy = true ∧ (withHost race [] [.host]).env.ops = []) ∧
      ((withHost race [rd 0x10] []).busy = true ∧ (withHost race [rd 0x10] []).env.turns = []) ∧ fresh.busy = false := by decide

theorem witness_EveryCommandCompletes : Instr.treeBuild ≠ .errAck := by decide

theorem witness_FailedCommandChangesNothingElse :
    exec .treeBuild fresh = .next (after .treeBuild fresh) ∧ (after .treeBuild fresh).last ≠ .ok :=
  ⟨exec_after _ _, by decide⟩

theorem witness_ErrorCodesOfEachCommand :
    exec .pqPeek fresh = .next (after .pqPeek fresh) ∧ (after .pqPeek fresh).last ≠ .ok :=
  ⟨exec_after _ _, by decide⟩

/-- Its three cases: an error, ERR_ACK, another success. -/
theorem witness_StickyRecordsErrors :
    (after .treeBuild fresh).last ≠ .ok ∧ (after .errAck fresh).last = .ok ∧ (after .nop fresh).last = .ok ∧
      ∀ (i : Instr) (s : State), exec i s = .next (after i s) :=
  ⟨by decide, by decide, by decide, exec_after⟩

/-- Per word: a command that writes fewer words, and a failing one that writes it. -/
theorem witness_ResultsOnlyFromSuccessfulQueries :
    resultWords .nop < 1 ∧ resultWords .outRead < 2 ∧ resultWords (.codeLen 0#16) < 3 ∧ resultWords .ftRead < 4 ∧
      ¬ resultWords .nodeRead < 4 ∧ (after .nodeRead fresh).last ≠ .ok ∧
      exec .nodeRead fresh = .next (after .nodeRead fresh) :=
  ⟨by decide, by decide, by decide, by decide, by decide, by decide, exec_after _ _⟩

/-- Each of the five commands changes the phase somewhere. -/
theorem witness_PhaseTransitions :
    (after .treeInit t2).phase ≠ t2.phase ∧
      (after .treeFinish (after .treeStep (queued t2))).phase ≠ (after .treeStep (queued t2)).phase ∧
      (after .treeBuild t2).phase ≠ t2.phase ∧ (after .codesBuild (built t2)).phase ≠ (built t2).phase ∧
      (after .clear (coded t2)).phase ≠ (coded t2).phase ∧ ∀ (i : Instr) (s : State), exec i s = .next (after i s) :=
  ⟨by decide, by decide, by decide, by decide, by decide, exec_after⟩

/-- Each piece of storage is written by some command. -/
theorem witness_StorageWrittenOnlyByItsCommands :
    (after (.ftAdd 0x43#16) { t2 with arg := 1#32 }).ft ≠ t2.ft ∧
      (after (.ftAdd 0x43#16) { t2 with arg := 1#32 }).totalW ≠ t2.totalW ∧ (after .treeInit t2).nodes ≠ t2.nodes ∧
      (after .treeStep (queued t2)).nodes ≠ (queued t2).nodes ∧ (after .treeStep (queued t2)).heap ≠ (queued t2).heap ∧
      (after .treeBuild t2).root ≠ t2.root ∧ (after .codesBuild (built t2)).code ≠ (built t2).code ∧
      (after (.encode 0x41#16) (coded t2)).out ≠ (coded t2).out ∧ (after .outClear outputT2).out ≠ outputT2.out ∧
      Instr.treeInit ≠ .clear := by decide

/-- The largest sum that still fits, 0xFFFFFFFF, into the last free slot. -/
theorem witness_FtAddAppendsTheEntry :
    let s := { loaded ⟨2, 1, 0⟩ [(0x41#16, 0xFFFFFFFE#32)] with arg := 1#32 }
    s.phase = .loading ∧ s.arg ≠ 0#32 ∧ (∀ e ∈ s.ft, e.sym ≠ 0x42#16) ∧ s.k ≠ s.params.maxSyms ∧
      s.totalW.toNat + s.arg.toNat ≤ 0xFFFFFFFF ∧ s.totalW.toNat + s.arg.toNat = 0xFFFFFFFF := by decide

/-- Each check fails somewhere, with the ones before it passed; the last by one. -/
theorem witness_FtAddChecksInOrder :
    (coded t2).phase ≠ .loading ∧
    ({ t2 with arg := 0#32 } : State).arg = 0#32 ∧
    ({ t2 with arg := 1#32 } : State).arg ≠ 0#32 ∧ (∃ e ∈ t2.ft, e.sym = 0x42#16) ∧
    (heavy.phase = .loading ∧ ({ heavy with arg := 1#32 } : State).arg ≠ 0#32 ∧ (∀ e ∈ heavy.ft, e.sym ≠ 0x42#16) ∧
      heavy.k = heavy.params.maxSyms) ∧
    (let s := { loaded ⟨2, 1, 0⟩ [(0x41#16, 0xFFFFFFFF#32)] with arg := 1#32 }
     s.phase = .loading ∧ s.arg ≠ 0#32 ∧ (∀ e ∈ s.ft, e.sym ≠ 0x42#16) ∧ s.k ≠ s.params.maxSyms ∧
       0xFFFFFFFF < s.totalW.toNat + s.arg.toNat) := by decide

theorem witness_FtReadReturnsTheEntry :
    ({ t2 with arg := 1#32 } : State).ft[({ t2 with arg := 1#32 } : State).arg.toNat]? = some ⟨0x42#16, 1#32⟩ := by decide

/-- The last clause's hypotheses, at the first index past each count. -/
theorem witness_IndexRangeExactlyPastTheCount :
    (afterArg .ftRead 2#32 t2).last = .indexRange ∧ (afterArg .nodeRead 3#32 (built t2)).last = .indexRange ∧
      (afterArg .heapRead 2#32 (queued t2)).last = .indexRange ∧ (afterArg .heapRead 1#32 (queued t2)).last = .ok ∧
      ∀ (i : Instr) (s : State), exec i s = .next (after i s) :=
  ⟨by decide, by decide, by decide, by decide, exec_after⟩

theorem witness_LookupFindsExactlyTheLoadedSymbols : t2.Inv ∧ heavy.Inv := ⟨t2_inv, heavy_inv⟩

theorem witness_TreeInitQueuesTheLeaves : t2.phase = .loading ∧ 1 ≤ t2.k ∧ t2.k ≤ 65536 ∧ 1 = t1.k ∧ t1.phase = .loading := by
  decide

theorem witness_TreeInitOfEqualWeightsKeepsSlotOrder :
    t4.phase = .loading ∧ 1 ≤ t4.k ∧ t4.k ≤ 65536 ∧ ∀ e ∈ t4.ft, e.freq = 1#32 := by decide

theorem witness_TreeStepMergesTheTwoLightest :
    (queued t2).Inv ∧ (queued t2).phase = .queued ∧ 2 ≤ (queued t2).pqCount ∧ (queued t2).pqCount = 2 :=
  ⟨queuedT2_inv, by decide, by decide, by decide⟩

theorem witness_TreeFinishSetsTheRoot :
    (after .treeStep (queued t2)).phase = .queued ∧ (after .treeStep (queued t2)).heap = [2#32] ∧
      (after .treeStep (queued t2)).Inv := ⟨by decide, by decide, lastT2_inv⟩

/-- Its seven clauses; the fifth, an empty queue in phase QUEUED, in a state no run reaches. -/
theorem witness_BuilderChecks :
    (built t2).phase ≠ .loading ∧ (fresh.phase = .loading ∧ fresh.k = 0) ∧ t2.phase ≠ .queued ∧
      ((after .treeStep (queued t2)).phase = .queued ∧ (after .treeStep (queued t2)).pqCount < 2) ∧
      (({ fresh with phase := .queued } : State).phase = .queued ∧ ({ fresh with phase := .queued } : State).pqCount = 0) ∧
      ((queued t2).phase = .queued ∧ 2 ≤ (queued t2).pqCount) ∧ (queued t2).phase ≠ .tree := by decide

theorem witness_TreeBuildIsItsSteps : t3.phase = .loading ∧ 1 ≤ t3.k ∧ t1.phase = .loading ∧ 1 ≤ t1.k := by decide

theorem witness_TreeBuildBuildsTheTree :
    t2.Inv ∧ t2.phase = .loading ∧ 1 ≤ t2.k ∧ heavy.Inv ∧ heavy.phase = .loading ∧ 1 ≤ heavy.k :=
  ⟨t2_inv, by decide, by decide, heavy_inv, by decide, by decide⟩

theorem witness_NodeReadReturnsTheNode :
    ({ built t2 with arg := 1#32 } : State).nodes[({ built t2 with arg := 1#32 } : State).arg.toNat]? =
        some (.leaf 0x42#16 1#32) ∧
      ({ built t2 with arg := 2#32 } : State).nodes[({ built t2 with arg := 2#32 } : State).arg.toNat]? =
        some (.internal 4#32 1#32 0#32) := by decide

theorem witness_PqPeekReturnsTheMinimum : (queued t2).heap = 1#32 :: [0#32] ∧ (queued t2).Inv ∧ fresh.heap = [] :=
  ⟨by decide, queuedT2_inv, by decide⟩

theorem witness_HeapReadReturnsTheEntry :
    ({ queued t2 with arg := 1#32 } : State).heap[({ queued t2 with arg := 1#32 } : State).arg.toNat]? = some 0#32 ∧
      (queued t2).heap[({ queued t2 with arg := 0#32 } : State).arg.toNat]? = some 1#32 ∧
      ({ queued t2 with arg := 0#32 } : State).arg = 0#32 := by decide

/-- The last position of a queue, where an entry has a parent. -/
theorem witness_QueueOperationsFollowTheirLoops : 1 < (queued t2).heap.length ∧ 0 < (queued t2).heap.length := by decide

theorem witness_CodesBuildWritesThePaths : (built t2).Inv ∧ (built t2).phase = .tree := ⟨builtT2_inv, by decide⟩

theorem witness_CodeQueriesReturnTheCode :
    (coded t2).Inv ∧ (coded t2).phase = .coded ∧ ((coded t2).ft[1]?).map FtEntry.sym = some 0x42#16 ∧
      (coded t2).code[1]? = some [false] := ⟨codedT2_inv, by decide, by decide, by decide⟩

theorem witness_MissingCodeChecks :
    (built t2).phase ≠ .coded ∧ (coded t2).phase = .coded ∧ ∀ e ∈ (coded t2).ft, e.sym ≠ 0x5A#16 := by decide

/-- One bit in the output of the given capacity. -/
def nearlyFull (cap : Nat) : State := { coded t2 with params := ⟨2, cap, 0⟩, out := [true] }

theorem nearlyFull_phase (cap : Nat) : (nearlyFull cap).phase = .coded := codedT2_phase

theorem nearlyFull_inv (cap : Nat) (h1 : 1 ≤ cap) (h2 : cap ≤ 0xFFFFFFFF) : (nearlyFull cap).Inv where
  legal := by simp [nearlyFull, Params.legal, h1, h2]
  capacity := by show (coded t2).ft.length ≤ 2; decide
  positive := codedT2_inv.positive
  unique := codedT2_inv.unique
  total := codedT2_inv.total
  outFits := h1
  noted := codedT2_inv.noted
  phaseOk := by
    simp only [PhaseOk, nearlyFull_phase]
    exact ⟨(codedT2_inv.treeDone (.inr codedT2_phase)).congr rfl rfl rfl rfl, (codedT2_inv.codesValid codedT2_phase).congr rfl rfl rfl rfl⟩

/-- An exact fill, and no room. -/
theorem witness_EncodeAppendsTheCode :
    (nearlyFull 2).Inv ∧ (nearlyFull 1).Inv ∧ (nearlyFull 2).phase = .coded ∧
      ((nearlyFull 2).ft[1]?).map FtEntry.sym = some 0x42#16 ∧ (nearlyFull 2).code[1]? = some [false] ∧
      (nearlyFull 2).outLen + [false].length ≤ (nearlyFull 2).params.outCap ∧ (nearlyFull 1).phase = .coded ∧
      ((nearlyFull 1).ft[1]?).map FtEntry.sym = some 0x42#16 ∧ (nearlyFull 1).code[1]? = some [false] ∧
      (nearlyFull 1).params.outCap < (nearlyFull 1).outLen + [false].length :=
  ⟨nearlyFull_inv 2 (by decide) (by decide), nearlyFull_inv 1 (by decide) (by decide), by decide, by decide, by decide,
    by decide, by decide, by decide, by decide, by decide⟩

theorem codedT2_ft : (coded t2).ft = [⟨0x41#16, 3#32⟩, ⟨0x42#16, 1#32⟩] := by decide

theorem codedT2_code : (coded t2).code = [[true], [false]] := by decide

/-- Two codes of one bit into a buffer of three with one bit in it. -/
theorem witness_EncodingASequenceAppendsItsCodes :
    (nearlyFull 3).phase = .coded ∧ (∀ c ∈ [0x41#16, 0x42#16], ∃ e ∈ (nearlyFull 3).ft, e.sym = c) ∧
      (nearlyFull 3).outLen +
        ([0x41#16, 0x42#16].map (fun c => (codeAt (nearlyFull 3) ((lookup (nearlyFull 3).ft c).getD 0)).length)).sum ≤
          (nearlyFull 3).params.outCap := by
  refine ⟨codedT2_phase, ?_, ?_⟩
  · show ∀ c ∈ _, ∃ e ∈ (coded t2).ft, e.sym = c
    simp [codedT2_ft]
  · have hc : (nearlyFull 3).code = [[true], [false]] := codedT2_code
    have hf : (nearlyFull 3).ft = [⟨0x41#16, 3#32⟩, ⟨0x42#16, 1#32⟩] := codedT2_ft
    simp only [codeAt, hc, hf]
    show 1 + _ ≤ 3
    decide

theorem witness_OutputLengthIsTheCost :
    (coded t2).Inv ∧ (coded t2).phase = .coded ∧ (coded t2).out = [] ∧
      (∀ c ∈ [0x41#16, 0x41#16, 0x41#16, 0x42#16], ∃ e ∈ (coded t2).ft, e.sym = c) ∧
      (∀ e ∈ (coded t2).ft, [0x41#16, 0x41#16, 0x41#16, 0x42#16].count e.sym = e.freq.toNat) ∧
      codeCost (coded t2).ft (coded t2).code ≤ (coded t2).params.outCap := by
  refine ⟨codedT2_inv, codedT2_phase, by decide, ?_, ?_, ?_⟩
  · simp [codedT2_ft]
  · rw [codedT2_ft]; decide
  · rw [codedT2_ft, codedT2_code]
    show _ ≤ 65536
    decide

theorem witness_OneSymbolAlphabet : t1.phase = .loading ∧ t1.ft = [⟨0x41#16, 4#32⟩] ∧ t1.outLen ≤ t1.params.outCap := by decide

/-- Idle, and with a command in flight; each of the three registers. -/
theorem witness_ConstantRegistersRead :
    mover (withHost fresh [rd 0x04] []) = .host ∧ (withHost fresh [rd 0x04] []).env.ops = [.read (platform.huffBase + 0x04) 4] ∧
      mover (busyT2 .host) = .host ∧ (0x100#32).toNat = platform.maxSyms ∧ (0x10000#32).toNat = platform.outCap := by decide

/-- Both ends of the map with BUSY = 0, and of the two ranges a command in flight leaves readable. -/
theorem witness_RegisterMapReads :
    (∀ off ∈ [0x00, 0x1C, 0x40, 0x44, 0x7C], mover (withHost t2 [rd off] []) = .host ∧
      (withHost t2 [rd off] []).env.ops = [.read ((withHost t2 [rd off] []).params.huffBase + off) 4] ∧
      (withHost t2 [rd off] []).busy = false) ∧
    (∀ off ∈ [0x00, 0x18, 0x44, 0x7C], mover (withHost race [rd off] [.host]) = .host ∧
      (withHost race [rd off] [.host]).env.ops = [.read ((withHost race [rd off] [.host]).params.huffBase + off) 4] ∧
      (off < 0x1C ∨ 0x40 < off)) ∧
    (2#32).toNat = t2.ft.length ∧ (0#32).toNat = t2.heap.length := by decide

theorem witness_WritesWhileIdle :
    let s := fun off => withHost fresh [wr off 5#32] []
    (s 0x14).pending = none ∧ 0x14 < 0x80 ∧ 0x14 % 4 = 0 ∧
      (s 0x14).env.ops = [.write ((s 0x14).params.huffBase + 0x14) 4 5#32] ∧
      (s 0x18).env.ops = [.write ((s 0x18).params.huffBase + 0x18) 4 5#32] ∧ 0x7C < 0x80 ∧ 0x7C % 4 = 0 ∧
      (s 0x7C).env.ops = [.write ((s 0x7C).params.huffBase + 0x7C) 4 5#32] := by decide

theorem witness_WritesWhileBusy :
    let s := fun off => withHost race [wr off 5#32] [.host]
    (s 0x14).busy = true ∧ mover (s 0x14) = .host ∧ (s 0x14).env.ops = [.write ((s 0x14).params.huffBase + 0x14) 4 5#32] ∧
      (s 0x18).env.ops = [.write ((s 0x18).params.huffBase + 0x18) 4 5#32] ∧
      (s 0x00).env.ops = [.write ((s 0x00).params.huffBase + 0x00) 4 5#32] := by decide

theorem witness_ReadsHaveNoSideEffect :
    mover (withHost fresh [rd 0x2C] []) = .host ∧ (withHost fresh [rd 0x2C] []).env.ops = [rd 0x2C] ∧
      step (withHost fresh [rd 0x2C] []) = .next (moved (withHost fresh [rd 0x2C] [])) ∧
      (withHost fresh [rd 0x2C] []).busy = false ∧ rd 0x2C = .read (platform.huffBase + 0x2C) 4 ∧
      mover (withHost race [.wait] [.host]) = .host ∧
      step (withHost race [.wait] [.host]) = .next (moved (withHost race [.wait] [.host])) ∧
      step (withHost race [.check 0x40000018 4 6#32] [.host]) = .next (moved (withHost race [.check 0x40000018 4 6#32] [.host])) :=
  ⟨by decide, by decide, by rfl, by decide, by decide, by decide, by rfl, by rfl⟩

/-- Both sides of both ends of the range of R57. -/
theorem witness_ReadsWhileBusy :
    let s := fun off => withHost race [rd off] [.host]
    (s 0x1C).busy = true ∧ mover (s 0x1C) = .host ∧ (s 0x1C).env.ops = [.read ((s 0x1C).params.huffBase + 0x1C) 4] ∧
      (s 0x40).env.ops = [.read ((s 0x40).params.huffBase + 0x40) 4] ∧
      (s 0x18).env.ops = [.read ((s 0x18).params.huffBase + 0x18) 4] ∧
      (s 0x44).env.ops = [.read ((s 0x44).params.huffBase + 0x44) 4] ∧ 0x44 < 0x80 ∧ 0x44 % 4 = 0 := by decide

theorem witness_DefinedProgramNeverStops :
    ∀ op ∈ (withHost race [rd 0x00, wr 0x7C 1#32, .wait, .reset] [.host]).env.ops,
      op.wellFormed (withHost race [rd 0x00, wr 0x7C 1#32, .wait, .reset] [.host]).params = true := by decide

theorem witness_ResetRestoresEverything :
    mover (withHost { t3 with pending := some 0x23000000#32 } [.reset] [.host]) = .host ∧
      (withHost { t3 with pending := some 0x23000000#32 } [.reset] [.host]).env.ops = .reset :: [] := by decide

theorem witness_ResetIsWellFormed : (Params.mk 2 1 0).legal = true ∧ (Params.mk 65536 0xFFFFFFFF 0).legal = true := by decide

theorem witness_StepKeepsWellFormed :
    (withHost { coded t2 with pending := some 0x40000041#32 } [] []).Inv ∧
      step (withHost { coded t2 with pending := some 0x40000041#32 } [] []) =
        .next (moved (withHost { coded t2 with pending := some 0x40000041#32 } [] [])) :=
  ⟨codedT2_inv.congr rfl rfl rfl rfl rfl rfl rfl rfl rfl (.inl (by decide)), by rfl⟩

theorem witness_SizesStayInBounds : (coded t2).Inv ∧ (coded t2).phase = .coded ∧ 2 ≤ (coded t2).k :=
  ⟨codedT2_inv, by decide, by decide⟩

theorem witness_RootWeighsTheTotal :
    ((built t2).Inv ∧ ((built t2).phase = .tree ∨ (built t2).phase = .coded)) ∧
      ((coded t2).Inv ∧ ((coded t2).phase = .tree ∨ (coded t2).phase = .coded)) :=
  ⟨⟨builtT2_inv, .inl (by decide)⟩, codedT2_inv, .inr (by decide)⟩

theorem witness_EveryNodeReachedOnce :
    (built t2).Inv ∧ ((built t2).phase = .tree ∨ (built t2).phase = .coded) ∧ 2 < (built t2).nodeCount :=
  ⟨builtT2_inv, .inl (by decide), by decide⟩

theorem witness_CodesArePrefixFree : (coded t2).Inv ∧ (coded t2).phase = .coded := ⟨codedT2_inv, by decide⟩

theorem witness_BuiltCodesAreOptimal :
    t2.Inv ∧ t2.phase = .loading ∧ 1 ≤ t2.k ∧ [[false], [true]].length = t2.k ∧ PrefixFree [[false], [true]] := by
  refine ⟨t2_inv, by decide, by decide, by decide, ?_⟩
  intro i j p q hi hj hij
  match i, j with
  | 0, 0 => exact absurd rfl hij
  | 0, 1 => simp at hi hj; subst hi hj; decide
  | 1, 0 => simp at hi hj; subst hi hj; decide
  | 1, 1 => exact absurd rfl hij
  | i + 2, _ => simp at hi
  | _, j + 2 => simp at hj

theorem witness_PseudoInstructionsWait :
    ∀ op ∈ [AsmOp.loadFreqs [0x41#16], .build, .command .outRead (some 0#32), .check 0x1C 0#32],
      (∀ off v, op ≠ .write off v) ∧ ∀ w, op ≠ .cmd w := by simp

/-- `NOP` and its wait, run with the core moving first and with the host polling once first. -/
theorem witness_WaitingProgramHasOneOutcome :
    let s := withHost fresh [wr 0x14 0#32, .wait] []
    s.pending = none ∧ waitsAfterCommands s.params s.env.ops = true ∧
      (∃ t, runSteps 3 s = .next t ∧ runEnded t) ∧
      ∃ u, runSteps 4 { s with env := { s.env with turns := [.host, .core] } } = .next u ∧ runEnded u :=
  ⟨by decide, by decide, ⟨_, rfl, by decide, by decide⟩, ⟨_, rfl, by decide, by decide⟩⟩

end Sys2Proof.Tests
end

section
/-! PROOFS. The bounds of the sizes in a well-formed state (00_scope.md R7; 10_state.md R35, R36; 40_priority_queue.md R106;
42_tree_builder.md R137) and of the lengths of the codes (43_code_table.md R150). -/

namespace Sys2Proof.Machine

variable {s : State}

/-- In every phase the arena and the queue are bounded by the alphabet (R106, R137). -/
theorem State.Inv.nodeCount_pqCount_le (h : s.Inv) : s.nodeCount ≤ 2 * s.k - 1 ∧ s.pqCount ≤ s.k := by
  have hphase := h.phaseOk
  unfold PhaseOk at hphase
  have complete (hd : TreeDone s) : s.nodeCount ≤ 2 * s.k - 1 ∧ s.pqCount ≤ s.k :=
    ⟨Nat.le_of_eq hd.nodeCount, by simp [State.pqCount, hd.queue]⟩
  split at hphase
  case h_1 =>
    obtain ⟨⟨hnodes, hheap, -⟩, -⟩ := hphase
    simp [State.nodeCount, State.pqCount, hnodes, hheap]
  case h_2 =>
    obtain ⟨hq, -⟩ := hphase
    have hleaves := hq.leaves
    have hqueue := hq.queue
    have hcounts := hq.counts
    omega
  case h_3 => exact complete hphase.1
  case h_4 => exact complete hphase.1

/-- In a complete tree a path from the root has at most k - 1 steps: each leads down in the numbering, and all but the last
to an internal node (R32, R137). -/
theorem TreeDone.path_length_le (hd : TreeDone s) {p : BitString} {m : Word} (hp : descend s.nodes s.root p = some m) :
    p.length ≤ s.k - 1 := by
  have halphabet := hd.alphabet
  obtain ⟨-, hbound⟩ := hd.forest.path_bound p hp
  have hroot := hd.root
  rcases p with _ | ⟨b, p⟩
  · simp
  · have hlen : (b :: p).length + s.k ≤ s.root.toNat + 1 := hbound (by simp)
    omega

/-- In a complete tree of two or more leaves the root is no leaf, so a path from it to a leaf takes a step (R150). -/
theorem TreeDone.leaf_path_length_pos (hd : TreeDone s) {p : BitString} {m : Word}
    (hp : descend s.nodes s.root p = some m) (hm : m.toNat < s.k) (hk : 2 ≤ s.k) : 1 ≤ p.length := by
  rcases p with _ | ⟨b, p⟩
  · have hroot := hd.root
    obtain rfl : s.root = m := by simpa using hp
    omega
  · simp

/-- Each code of a valid table is a path from the root to some slot's leaf (R151). -/
theorem CodesValid.mem_descend (hc : CodesValid s) {p : BitString} (hp : p ∈ s.code) :
    ∃ m : Word, descend s.nodes s.root p = some m ∧ m.toNat < s.k := by
  obtain ⟨hlen, hpath⟩ := hc
  obtain ⟨i, hi, rfl⟩ := List.getElem_of_mem hp
  obtain ⟨m, hm, rfl⟩ := Option.map_eq_some_iff.1 (hpath i (hlen ▸ hi))
  exact ⟨m, by simpa [codeAt, hi] using hm, hlen ▸ hi⟩

/-- Settles O52: the counts by the phases of R39, the codes as paths of the complete tree. -/
theorem sizesStayInBounds : Obligations.SizesStayInBounds := by
  intro s h
  have hcap := h.capacity
  obtain ⟨hnodes, hqueue⟩ := h.nodeCount_pqCount_le
  refine ⟨hcap, by omega, by omega, h.outFits, fun hcoded p hp => ?_⟩
  have hd := h.treeDone (.inr hcoded)
  obtain ⟨m, hm, hleaf⟩ := (h.codesValid hcoded).mem_descend hp
  exact ⟨hd.path_length_le hm, hd.leaf_path_length_pos hm hleaf⟩

end Sys2Proof.Machine
end

section
/-! PROOFS. What commands may write (10_state.md R28, R29; 60_exceptions.md R204, R205), from the one lemma that says all that
exec can answer. -/

namespace Sys2Proof.Machine

/-- A command's next state: the aborted state of one of its errors, or its writes committed. -/
theorem exec_next_cases {i : Instr} {s t : State} (he : exec i s = .next t) :
    (∃ c, c ∈ errorsOf i ∧ c ≠ .ok ∧ t = aborted c s) ∨ ∃ u, t = completed u ∧ Touches i s u := by
  rcases exec_ends i s with ⟨c, hmem, hc, hr⟩ | ⟨u, hr, ht⟩
  · exact .inl ⟨c, hmem, hc, Host.Outcome.next.inj (he.symm.trans hr)⟩
  · exact .inr ⟨u, Host.Outcome.next.inj (he.symm.trans hr), ht⟩

/-- Settles O14: a failing command keeps all four words, a successful one those its rule does not name. -/
theorem resultsOnlyFromSuccessfulQueries : Obligations.ResultsOnlyFromSuccessfulQueries := by
  intro i s t he
  rcases exec_next_cases he with ⟨c, -, -, rfl⟩ | ⟨u, rfl, ht⟩
  · simp
  · have hok : ¬ (completed u).last ≠ .ok := by simp
    exact ⟨fun h => ht.res0 (h.resolve_right hok), fun h => ht.res1 (h.resolve_right hok),
      fun h => ht.res2 (h.resolve_right hok), fun h => ht.res3 (h.resolve_right hok)⟩

/-- Settles O15: a failing command keeps the phase, so the change is one of those a successful command makes. -/
theorem phaseTransitions : Obligations.PhaseTransitions := by
  intro i s t he hne
  rcases exec_next_cases he with ⟨c, -, -, rfl⟩ | ⟨u, rfl, ht⟩
  · exact absurd rfl hne
  · exact ⟨rfl, ht.phase.resolve_left hne⟩

/-- Settles O16: a failing command keeps all storage, a successful one all but what its rule has it write. -/
theorem storageWrittenOnlyByItsCommands : Obligations.StorageWrittenOnlyByItsCommands := by
  intro i s t he hclear
  rcases exec_next_cases he with ⟨c, -, -, rfl⟩ | ⟨u, rfl, ht⟩
  · simp
  · exact ⟨fun hne => (ht.table.resolve_left (not_and_or.2 hne)).resolve_left hclear,
      fun hne => (ht.nodes.resolve_left hne).resolve_left hclear,
      fun hne => (ht.heap.resolve_left hne).resolve_left hclear,
      fun hne => (ht.root.resolve_left hne).resolve_left hclear,
      fun hne => (ht.code.resolve_left hne).resolve_left hclear,
      fun hne => (ht.out.resolve_left hne).resolve_left hclear⟩

end Sys2Proof.Machine
end

section
/-! PROOFS. What a read of the window returns (10_state.md R21 to R37; 20_memory.md R53, R57), and STATUS as a number (R26). -/

namespace Sys2Proof.Machine

variable {s : State} {rest : List HostOp} {off : Nat}

/-! ### Reads -/

@[simp] theorem regContent_takeTurn (s : State) (r : Reg) : regContent (takeTurn s) r = regContent s r := by
  unfold takeTurn
  split
  · exact regContent_env s _ r
  · rfl

@[simp] theorem readIsDraw_takeTurn (s : State) (r : Reg) : readIsDraw (takeTurn s) r = readIsDraw s r := by
  simp [readIsDraw]

theorem readValue_of_not_draw {r : Reg} (h : readIsDraw s r = false) : readValue s r = regContent s r := by
  simp [readValue, h]

/-- A read of a slot of the window that is no draw returns the register's content (R53). -/
theorem step_read_slot (hm : mover s = .host) (ho : s.env.ops = .read (s.params.huffBase + off) 4 :: rest)
    (hoff : off < 0x80) (h4 : off % 4 = 0) (hdraw : readIsDraw s (regAt off) = false) :
    ∃ t, step s = .next t ∧ t.env.ops = rest ∧
      t.env.trace = s.env.trace ++ [.read off (regContent s (regAt off))] := by
  have hvalue : readValue (takeTurn s) (regAt off) = regContent s (regAt off) := by
    rw [readValue_of_not_draw (by simpa using hdraw), regContent_takeTurn]
  exact ⟨popOp (hostRead off (takeTurn s)),
    by simp [step_host hm ho, hostStep, accessRefusal_slot _ hoff h4], by simp [ho], by simp [hvalue]⟩

/-- The registers a command in flight may be updating stand at 0x1C to 0x40 (R57). -/
theorem unspecifiedWhileBusy_regAt (h : off < 0x1C ∨ 0x40 < off) : unspecifiedWhileBusy (regAt off) = false := by
  unfold regAt
  split <;> simp_all [unspecifiedWhileBusy]

theorem readIsDraw_regAt (h : s.busy = false ∨ off < 0x1C ∨ 0x40 < off) : readIsDraw s (regAt off) = false := by
  rcases h with hidle | hout
  · simp [readIsDraw, hidle]
  · simp [readIsDraw, unspecifiedWhileBusy_regAt hout]

/-- The offsets from 0x44 on are reserved (R21). -/
theorem regAt_reserved (h : 0x44 ≤ off) : regAt off = .reserved := by
  unfold regAt
  split <;> simp_all

theorem zext32_of_toNat {n : Nat} {v : Word} (h : v.toNat = n) : zext32 n = v := by
  subst h
  simp [zext32]

/-- Settles O59: each row of R21's map is a slot, and its register's content is the row's value. -/
theorem registerMapReads : Obligations.RegisterMapReads := by
  intro s rest off v hm ho hspecified hrow
  obtain ⟨hoff, h4⟩ : off < 0x80 ∧ off % 4 = 0 := by omega
  have hcontent : regContent s (regAt off) = v := by
    rcases hrow with ⟨rfl, hv⟩ | ⟨rfl, hv⟩ | ⟨rfl, hv⟩ | ⟨rfl, hv⟩ | ⟨rfl, hv⟩ | ⟨rfl, hv⟩ | ⟨rfl, hv⟩ | ⟨rfl, hv⟩ |
      ⟨rfl, hv⟩ | ⟨rfl, hv⟩ | ⟨rfl, hv⟩ | ⟨rfl, hv⟩ | ⟨rfl, hv⟩ | ⟨rfl, hv⟩ | ⟨rfl, hv⟩ | ⟨rfl, hv⟩ | ⟨rfl, hv⟩ |
      ⟨hlo, -, -, hv⟩
    exacts [hv.symm, hv.symm, zext32_of_toNat hv, zext32_of_toNat hv, hv.symm, hv.symm, hv.symm, hv.symm, hv.symm,
      hv.symm, hv.symm, zext32_of_toNat hv, zext32_of_toNat hv, zext32_of_toNat hv, hv.symm, zext32_of_toNat hv, hv.symm,
      by rw [regAt_reserved hlo, hv]; rfl]
  subst hcontent
  exact step_read_slot hm ho hoff h4 (readIsDraw_regAt hspecified)

/-- Settles O41: three rows of the map, none of them a draw. -/
theorem constantRegistersRead : Obligations.ConstantRegistersRead := by
  intro s rest off v hm hrow ho
  refine registerMapReads s rest off v hm ho (by omega) ?_
  rcases hrow with hversion | hsyms | hout
  · exact .inr (.inl hversion)
  · exact .inr (.inr (.inl hsyms))
  · exact .inr (.inr (.inr (.inl hout)))

/-! ### STATUS -/

/-- Bits put side by side weigh by their places. -/
theorem toNat_append_eq_add {m n : Nat} (x : BitVec m) (y : BitVec n) : (x ++ y).toNat = x.toNat * 2 ^ n + y.toNat := by
  rw [BitVec.toNat_append, ← Nat.shiftLeft_add_eq_or_of_lt y.isLt, Nat.shiftLeft_eq]

theorem statusWord_toNat (s : State) : (statusWord s).toNat = s.busy.toNat + 2 * s.sticky.toNat + 4 * s.overrun.toNat +
    16 * (phaseBits s.phase).toNat + 256 * (codeByte s.last).toNat := by
  simp only [statusWord, toNat_append_eq_add, BitVec.toNat_ofBool, BitVec.toNat_ofNat]
  omega

/-- Settles O42: the fields at their places, and the numbers of the phases and of the codes. -/
theorem statusFields : Obligations.StatusFields := by
  intro s
  rw [statusWord_toNat]
  congr 1
  · congr 2
    cases s.phase <;> rfl
  · congr 1
    cases s.last <;> rfl

end Sys2Proof.Machine
end

section
/-! PROOFS. The step, and that a latched command word runs next (10_state.md R27; 20_memory.md R55). -/

namespace Sys2Proof.Machine

/-- The decoder undoes the encoder (R74): the row of R73 that an instruction's opcode selects is its own. -/
theorem decodeWord_encode (i : Instr) : decodeWord (encode i) = .ok i := by
  rw [decodeWord, encode, splitWord_joinWord]
  cases i <;> rfl

theorem tableWord_toNat (w : Word) : tableWord 32 w.toNat = w := by
  apply BitVec.eq_of_toNat_eq
  simpa [tableWord] using w.isLt

/-- The core's move executes the pending word (R55). -/
theorem step_core {s : State} {w : Word} (hm : mover s = .core) (hp : s.pending = some w) :
    step s = executeWord w (takeTurn s) := by
  simp [step, hm, hp]

theorem busy_of_mover_core {s : State} (hm : mover s = .core) : s.busy = true := by
  by_contra hidle
  simp [mover, hidle] at hm

/-- With a command in flight and no operation to come the core moves (U18). -/
theorem mover_of_no_ops {s : State} (hbusy : s.busy = true) (ho : s.env.ops = []) : mover s = .core := by
  rw [mover, if_pos hbusy]
  split <;> simp [ho]

/-- All that a step can be: none where there is nothing to do, the core's on the pending word, or the host's on its next
operation. -/
theorem step_cases (s : State) :
    (s.busy = false ∧ s.env.ops = [] ∧ step s = .next s) ∨
    (∃ w, mover s = .core ∧ s.pending = some w ∧ step s = executeWord w (takeTurn s)) ∨
    ∃ op rest, mover s = .host ∧ s.env.ops = op :: rest ∧ step s = hostStep op (takeTurn s) := by
  cases hm : mover s with
  | core =>
    obtain ⟨w, hw⟩ := Option.isSome_iff_exists.1 (busy_of_mover_core hm)
    exact .inr (.inl ⟨w, rfl, hw, step_core hm hw⟩)
  | host =>
    cases ho : s.env.ops with
    | nil =>
      have hidle : s.busy = false := Bool.eq_false_iff.2 fun hbusy => by simp [mover_of_no_ops hbusy ho] at hm
      exact .inl ⟨hidle, rfl, by simp [step, hm, ho]⟩
    | cons op rest => exact .inr (.inr ⟨op, rest, rfl, rfl, step_host hm ho⟩)

/-- Settles O6: withFetchWord gives the core the turn, and the turn it takes is the one withFetchWord added. -/
theorem latchedWordRunsNext : Obligations.LatchedWordRunsNext := by
  intro s i
  have hpending : (s.withFetchWord 32 (encode i).toNat).pending = some (encode i) := by
    simp [State.withFetchWord, tableWord_toNat]
  have hmover : mover (s.withFetchWord 32 (encode i).toNat) = .core := by
    rw [mover, if_pos (busy_of_pending hpending)]
    rfl
  have hturn : takeTurn (s.withFetchWord 32 (encode i).toNat) = { s with pending := some (encode i) } := by
    rw [takeTurn_eq _ (busy_of_pending hpending)]
    simp [State.withFetchWord, tableWord_toNat]
  rw [step_core hmover hpending, hturn, executeWord, decodeWord_encode]

end Sys2Proof.Machine
end

section
/-! PROOFS. The invariant of 10_state.md R39: the state after reset has it (R41), and every step keeps it, of the core, of the
host, or a reset. -/

namespace Sys2Proof.Machine

variable {s t u : State}

/-! ### The phase's part of the invariant -/

theorem phaseOk_loading (hp : s.phase = .loading) : PhaseOk s ↔ Loading s ∧ s.code = [] ∧ s.out = [] := by
  simp [PhaseOk, hp]

theorem phaseOk_queued (hp : s.phase = .queued) : PhaseOk s ↔ Queued s ∧ s.code = [] ∧ s.out = [] := by
  simp [PhaseOk, hp]

theorem phaseOk_tree (hp : s.phase = .tree) : PhaseOk s ↔ TreeDone s ∧ s.code = [] ∧ s.out = [] := by
  simp [PhaseOk, hp]

theorem phaseOk_coded (hp : s.phase = .coded) : PhaseOk s ↔ TreeDone s ∧ CodesValid s := by
  simp [PhaseOk, hp]

/-- A queue the merges can run on is one of phase QUEUED while it holds a node and no root is set (R39). -/
theorem QueueOk.queued (hq : QueueOk s.ft s.nodes s.heap) (hne : 1 ≤ s.heap.length) (hr : s.root = noNode) :
    Queued s where
  alphabet := by have := hq.counts; unfold State.k; omega
  leaves := hq.forest.leaf_le
  queue := hne
  counts := hq.counts
  root := hr
  ordered := hq.ordered
  forest := hq.forest

/-- The last queued node, once out of the queue, is the root of a complete tree (R133, R137). -/
theorem QueueOk.treeDone (hq : QueueOk s.ft s.nodes [s.root]) (hh : s.heap = []) : TreeDone s := by
  have hcounts : s.nodes.length + 1 = 2 * s.ft.length := hq.counts
  exact ⟨by unfold State.k; omega, by unfold State.nodeCount State.k; omega, hh, hq.last_root, hq.forest⟩

/-- The walk from the root of a complete tree gives every slot its path (R151, R152). -/
theorem TreeDone.codesOf_paths (hd : TreeDone s) (hlen : s.nodes.length ≤ 2 ^ 32) {i : Nat} (hi : i < s.k) :
    ∃ p, (codesOf s)[i]? = some p ∧ (descend s.nodes s.root p).map BitVec.toNat = some i :=
  walk_codes hd.forest hlen (blankCodes s.k) (by simp [blankCodes, State.k]) hi

theorem codesOf_length (s : State) : (codesOf s).length = s.k := by simp [codesOf, blankCodes]

/-! ### Reset -/

/-- The state after reset is well formed (R41). -/
theorem inv_atReset {p : Params} (e : HostEnv) (hp : p.legal = true) : (State.atReset p e).Inv where
  legal := hp
  capacity := Nat.zero_le _
  positive := by simp
  unique := by simp
  total := rfl
  outFits := Nat.zero_le _
  noted := .inl rfl
  phaseOk := (phaseOk_loading rfl).2 ⟨⟨rfl, rfl, rfl⟩, rfl, rfl⟩

/-- Settles O50: the tables are empty, and the default parameters are legal. -/
theorem resetIsWellFormed : Obligations.ResetIsWellFormed :=
  ⟨inv_atReset _ (by simp [Config.defaults, Params.legal]), fun _ e hp => inv_atReset e hp⟩

/-! ### The commands -/

/-- A next state of this answer is well formed. -/
def LeavesInv (r : Result) : Prop := ∀ t, r = .next t → t.Inv

/-- A command that fails changes nothing R39 speaks of, and sets STICKY (R205). -/
theorem State.Inv.raise_leavesInv (h : s.Inv) {c : Code} (hc : c ≠ .ok) : LeavesInv (raise c s) := by
  intro t he
  obtain rfl := (raise_next c s t hc).1 he
  exact h.congr rfl rfl rfl rfl rfl rfl rfl rfl rfl (.inr rfl)

/-- A command that succeeds need only commit writes that are well formed (R204). -/
theorem State.Inv.finish_leavesInv (h : s.Inv) : LeavesInv (finish s) := by
  intro t he
  obtain rfl := (finish_next s t).1 he
  exact h.congr rfl rfl rfl rfl rfl rfl rfl rfl rfl (.inl rfl)

/-- The commands that write neither the phase nor any piece of the job R39 speaks of: NOP, ERR_ACK and the queries. -/
def keepsJob : Instr → Bool
  | .nop | .errAck | .ftRead | .nodeRead | .pqPeek | .heapRead | .codeLen _ | .codeWord _ | .outRead => true
  | .clear | .outClear | .ftAdd _ | .treeInit | .treeStep | .treeFinish | .treeBuild | .codesBuild | .encode _ => false

/-- Such a command's writes leave the job as it was: each write of the job names a command that is none of them (R28). -/
theorem Touches.job_eq {i : Instr} (ht : Touches i s u) (hi : keepsJob i = true) :
    u.phase = s.phase ∧ u.ft = s.ft ∧ u.totalW = s.totalW ∧ u.nodes = s.nodes ∧ u.heap = s.heap ∧ u.root = s.root ∧
      u.code = s.code ∧ u.out = s.out := by
  obtain ⟨-, -, -, -, -, -, -, -, -, -, hphase, htable, hnodes, hheap, hroot, hcode, hout⟩ := ht
  cases i <;> simp_all [keepsJob]

theorem exec_leavesInv_of_keepsJob (h : s.Inv) {i : Instr} (hi : keepsJob i = true) : LeavesInv (exec i s) := by
  intro t he
  rcases exec_next_cases he with ⟨c, -, hc, rfl⟩ | ⟨u, rfl, ht⟩
  · exact h.raise_leavesInv hc _ (raise_eq c s hc)
  · obtain ⟨hphase, hft, htotal, hnodes, hheap, hroot, hcode, hout⟩ := ht.job_eq hi
    exact h.congr ht.params hft htotal hnodes hheap hroot hcode hout hphase (.inl rfl)

/-- CLEAR leaves the job of reset (R181). -/
theorem execClear_leavesInv (h : s.Inv) : LeavesInv (execClear s) :=
  State.Inv.finish_leavesInv { h with
    capacity := Nat.zero_le _, positive := by simp, unique := by simp, total := rfl, outFits := Nat.zero_le _
    phaseOk := (phaseOk_loading rfl).2 ⟨⟨rfl, rfl, rfl⟩, rfl, rfl⟩ }

/-- Only phase CODED holds output (R39). -/
theorem State.Inv.out_eq_nil (h : s.Inv) (hp : s.phase ≠ .coded) : s.out = [] := by
  cases hphase : s.phase with
  | loading => exact ((phaseOk_loading hphase).1 h.phaseOk).2.2
  | queued => exact ((phaseOk_queued hphase).1 h.phaseOk).2.2
  | tree => exact ((phaseOk_tree hphase).1 h.phaseOk).2.2
  | coded => exact absurd hphase hp

/-- OUT_CLEAR empties an output that no phase asks for (R172). -/
theorem execOutClear_leavesInv (h : s.Inv) : LeavesInv (execOutClear s) := by
  unfold execOutClear
  by_cases hp : s.phase = .coded
  · obtain ⟨hd, hc⟩ := (phaseOk_coded hp).1 h.phaseOk
    exact State.Inv.finish_leavesInv { h with
      outFits := Nat.zero_le _
      phaseOk := (phaseOk_coded (by simpa using hp)).2 ⟨hd.congr rfl rfl rfl rfl, hc.congr rfl rfl rfl rfl⟩ }
  · rw [← h.out_eq_nil hp]
    exact h.finish_leavesInv

/-- FT_ADD's checks are the table's invariants for one entry more (R122, R30, R31). -/
theorem execFtAdd_leavesInv (h : s.Inv) (sym : Symbol) : LeavesInv (execFtAdd sym s) := by
  unfold execFtAdd
  split_ifs with hp harg hdup hfull hover
  iterate 5 exact h.raise_leavesInv (by simp)
  have hp : s.phase = .loading := by simpa using hp
  have hnew : ∀ e ∈ s.ft, e.sym ≠ sym := by simpa [lookup_eq_none] using hdup
  refine State.Inv.finish_leavesInv { h with
    capacity := ?capacity, positive := ?positive, unique := ?unique, total := ?total, phaseOk := ?phaseOk }
  case capacity =>
    have hcap := h.capacity
    simp only [State.k, List.length_append, List.length_singleton] at hcap hfull ⊢
    omega
  case positive =>
    intro e he
    rcases List.mem_append.1 he with hold | hlast
    · exact h.positive e hold
    · obtain rfl := List.mem_singleton.1 hlast
      exact Nat.pos_of_ne_zero (fun h0 => harg (BitVec.eq_of_toNat_eq h0))
  case unique => simpa [List.nodup_append, h.unique] using hnew
  case total =>
    have hfits : s.totalW.toNat + s.arg.toNat < 2 ^ 32 := by unfold maxWord at hover; omega
    rw [BitVec.toNat_add, Nat.mod_eq_of_lt hfits, h.total]
    simp
  case phaseOk =>
    obtain ⟨hl, hcode, hout⟩ := (phaseOk_loading hp).1 h.phaseOk
    exact (phaseOk_loading (by simpa using hp)).2 ⟨hl.congr rfl rfl rfl, hcode, hout⟩

/-- TREE_INIT queues the leaves (R131). -/
theorem execTreeInit_leavesInv (h : s.Inv) : LeavesInv (execTreeInit s) := by
  unfold execTreeInit
  split_ifs with hp hk
  iterate 2 exact h.raise_leavesInv (by simp)
  obtain ⟨hl, hcode, hout⟩ := (phaseOk_loading (by simpa using hp)).1 h.phaseOk
  have hq := queueOk_leafNodes h.table_le h.total_lt
  exact State.Inv.finish_leavesInv { h with
    phaseOk := (phaseOk_queued rfl).2 ⟨hq.queued (by simp; omega) hl.root, hcode, hout⟩ }

/-- A merge keeps the queue one the merges can run on (R132). -/
theorem execTreeStep_leavesInv (h : s.Inv) : LeavesInv (execTreeStep s) := by
  unfold execTreeStep
  split_ifs with hp h2
  iterate 2 exact h.raise_leavesInv (by simp)
  have hp : s.phase = .queued := by simpa using hp
  obtain ⟨hqueued, hcode, hout⟩ := (phaseOk_queued hp).1 h.phaseOk
  obtain ⟨a, b, r1, r2, -, -, -, -, hmerge, hq⟩ := mergeTwo_spec (h.queueOk hp) (Nat.le_of_not_lt h2)
  rw [hmerge]
  exact State.Inv.finish_leavesInv { h with
    phaseOk := (phaseOk_queued (by simpa using hp)).2 ⟨hq.queued (by simp) hqueued.root, hcode, hout⟩ }

/-- The last queued node becomes the root (R133). -/
theorem execTreeFinish_leavesInv (h : s.Inv) : LeavesInv (execTreeFinish s) := by
  unfold execTreeFinish
  split_ifs with hp h2
  iterate 2 exact h.raise_leavesInv (by simp)
  have hp : s.phase = .queued := by simpa using hp
  obtain ⟨hqueued, hcode, hout⟩ := (phaseOk_queued hp).1 h.phaseOk
  have hone := hqueued.queue
  obtain ⟨r, hr⟩ := List.length_eq_one_iff.1 (by unfold State.pqCount at *; omega : s.heap.length = 1)
  have hq : QueueOk s.ft s.nodes [r] := hr ▸ h.queueOk hp
  rw [hr, heapDequeue_singleton]
  exact State.Inv.finish_leavesInv { h with phaseOk := (phaseOk_tree rfl).2 ⟨hq.treeDone rfl, hcode, hout⟩ }

/-- TREE_BUILD ends its merges with the root alone in the queue (R134). -/
theorem execTreeBuild_leavesInv (h : s.Inv) : LeavesInv (execTreeBuild s) := by
  unfold execTreeBuild
  split_ifs with hp hk
  iterate 2 exact h.raise_leavesInv (by simp)
  obtain ⟨hl, hcode, hout⟩ := (phaseOk_loading (by simpa using hp)).1 h.phaseOk
  have hleaves : QueueOk s.ft (leafNodes s.ft) (enqueueLeaves (leafNodes s.ft) s.k) :=
    queueOk_leafNodes h.table_le h.total_lt
  obtain ⟨nodes, r, hloop, hq⟩ := mergeLoop_spec s.k hleaves (by simpa using Nat.one_le_iff_ne_zero.2 hk) (by simp)
  rw [hloop]
  simp only [heapDequeue_singleton]
  exact State.Inv.finish_leavesInv { h with phaseOk := (phaseOk_tree rfl).2 ⟨hq.treeDone rfl, hcode, hout⟩ }

/-- CODES_BUILD writes the paths (R152). -/
theorem execCodesBuild_leavesInv (h : s.Inv) : LeavesInv (execCodesBuild s) := by
  unfold execCodesBuild
  split_ifs with hp
  · exact h.raise_leavesInv (by simp)
  · have hd := h.treeDone (.inl (by simpa using hp))
    refine State.Inv.finish_leavesInv { h with
      phaseOk := (phaseOk_coded rfl).2 ⟨hd.congr rfl rfl rfl rfl, codesOf_length s, fun i hi => ?_⟩ }
    obtain ⟨p, hp, hpath⟩ := hd.codesOf_paths (h.nodes_le hd) hi
    simpa [codeAt, hp] using hpath

/-- ENCODE's check of the room is the output's bound (R170). -/
theorem execEncode_leavesInv (h : s.Inv) (sym : Symbol) : LeavesInv (execEncode sym s) := by
  unfold execEncode
  split_ifs with hp
  · exact h.raise_leavesInv (by simp)
  have hp : s.phase = .coded := by simpa using hp
  obtain ⟨hd, hc⟩ := (phaseOk_coded hp).1 h.phaseOk
  cases lookup s.ft sym with
  | none => exact h.raise_leavesInv (by simp)
  | some i =>
    simp only
    split_ifs with hroom
    · exact h.raise_leavesInv (by simp)
    · exact State.Inv.finish_leavesInv { h with
        outFits := by simpa [State.outLen] using hroom
        phaseOk := (phaseOk_coded (by simpa using hp)).2 ⟨hd.congr rfl rfl rfl rfl, hc.congr rfl rfl rfl rfl⟩ }

/-- Every command leaves a well-formed state well formed. -/
theorem exec_leavesInv (h : s.Inv) (i : Instr) : LeavesInv (exec i s) := by
  cases i with
  | clear => exact execClear_leavesInv h
  | outClear => exact execOutClear_leavesInv h
  | ftAdd sym => exact execFtAdd_leavesInv h sym
  | treeInit => exact execTreeInit_leavesInv h
  | treeStep => exact execTreeStep_leavesInv h
  | treeFinish => exact execTreeFinish_leavesInv h
  | treeBuild => exact execTreeBuild_leavesInv h
  | codesBuild => exact execCodesBuild_leavesInv h
  | encode sym => exact execEncode_leavesInv h sym
  | nop | errAck | ftRead | nodeRead | pqPeek | heapRead | codeLen | codeWord | outRead =>
    exact exec_leavesInv_of_keepsJob h rfl

/-! ### The step -/

theorem executeWord_leavesInv (h : s.Inv) (w : Word) : LeavesInv (executeWord w s) := by
  unfold executeWord
  split
  · exact exec_leavesInv h _
  · exact h.raise_leavesInv (by simp)

theorem State.Inv.takeTurn (h : s.Inv) : (takeTurn s).Inv := by
  apply h.congr <;> simp [h.noted]

theorem State.Inv.popOp (h : s.Inv) : (popOp s).Inv := by
  apply h.congr <;> simp [h.noted]

theorem State.Inv.hostRead (h : s.Inv) (off : Nat) : (hostRead off s).Inv := by
  apply h.congr <;> simp [h.noted]

theorem State.Inv.hostPoll (h : s.Inv) : (hostPoll s).Inv := by
  apply h.congr <;> simp [h.noted]

theorem State.Inv.hostCheck (h : s.Inv) (off : Nat) (v : Word) : (hostCheck off v s).Inv := by
  apply h.congr <;> simp [h.noted]

theorem State.Inv.hostWrite (h : s.Inv) (r : Reg) (v : Word) : (noteWrite r (writeReg r v s)).Inv := by
  apply h.congr <;> simp [h.noted]

/-- The host's accesses reach nothing R39 speaks of, and a reset starts anew (R53, R54, R230). -/
theorem hostStep_leavesInv (h : s.Inv) (op : HostOp) : LeavesInv (hostStep op s) := by
  intro t he
  cases op with
  | read addr bytes =>
    simp only [hostStep] at he
    split at he <;> cases he
    exact (h.hostRead _).popOp
  | write addr bytes v =>
    simp only [hostStep] at he
    split at he <;> cases he
    exact (h.hostWrite _ v).popOp
  | check addr bytes v =>
    simp only [hostStep] at he
    split at he <;> cases he
    exact (h.hostCheck _ v).popOp
  | wait =>
    simp only [hostStep] at he
    split at he <;> cases he
    · exact h.hostPoll
    · exact h.hostPoll.popOp
  | reset => cases he; exact (inv_atReset s.env h.legal).popOp

/-- Settles O51: the invariant holds after each of the three kinds of step. -/
theorem stepKeepsWellFormed : Obligations.StepKeepsWellFormed := by
  intro s t h he
  rcases step_cases s with ⟨-, -, hidle⟩ | ⟨w, -, -, hcore⟩ | ⟨op, rest, -, -, hhost⟩
  · obtain rfl : s = t := Host.Outcome.next.inj (hidle.symm.trans he)
    exact h
  · exact executeWord_leavesInv h.takeTurn w t (hcore.symm.trans he)
  · exact hostStep_leavesInv h.takeTurn op t (hhost.symm.trans he)

end Sys2Proof.Machine
end

section
/-! PROOFS. Whose move it is, and the core's (20_memory.md R55; 93_implementation_defined.md U18). -/

namespace Sys2Proof.Machine

/-- Settles O5: the core's move executes the pending word, and the word decodes to i. -/
theorem stepRunsTheDecodedCommand : Obligations.StepRunsTheDecodedCommand := by
  intro s w i hp hm hd
  rw [step_core hm hp, takeTurn_eq s (busy_of_pending hp), executeWord, hd]

/-- With no command in flight only the host can move (R226). -/
theorem mover_idle {s : State} (h : s.busy = false) : mover s = .host := by simp [mover, h]

/-- Settles O9: by BUSY, whether the host has an operation, and the schedule's next entry. -/
theorem eitherAgentMayMoveWhileBusy : Obligations.EitherAgentMayMoveWhileBusy := by
  intro s
  refine ⟨fun hbusy hops a ts => ?_, ?_, mover_idle⟩
  · have hbusy' : State.busy { s with env := { s.env with turns := a :: ts } } = true := hbusy
    cases a with
    | host => simp [mover, hbusy', hops]
    | core => simp [mover, hbusy']
  · rintro hbusy (hops | hturns)
    · exact mover_of_no_ops hbusy hops
    · simp [mover, hbusy, hturns]

end Sys2Proof.Machine
end

section
/-! PROOFS. The host's operations on the bus (20_memory.md R50 to R57): which are refused, and what the others do. -/

namespace Sys2Proof.Machine

variable {s t : State} {op : HostOp} {rest : List HostOp} {off : Nat} {v : Word}

/-! ### One operation -/

/-- What an operation does to the machine and its trace, before the program goes on. -/
def opEffect : HostOp → State → State
  | .read addr _, s => hostRead (windowOffset s.params addr) s
  | .write addr _ v, s =>
    noteWrite (regAt (windowOffset s.params addr)) (writeReg (regAt (windowOffset s.params addr)) v s)
  | .check addr _ v, s => hostCheck (windowOffset s.params addr) v s
  | .wait, s => hostPoll s
  | .reset, s => State.atReset s.params s.env

/-- A defined operation has its effect, and the program goes on unless it is a `wait` that found the core busy (R78). -/
theorem hostStep_wellFormed (hop : op.wellFormed s.params = true) :
    hostStep op s = .next (if op = .wait ∧ s.busy = true then opEffect op s else popOp (opEffect op s)) := by
  cases op with
  | read addr bytes | write addr bytes v | check addr bytes v => simp [hostStep, opEffect, accessRefusal_none hop]
  | wait => cases hbusy : s.busy <;> simp [hostStep, opEffect, hbusy]
  | reset => rfl

/-- An operation the spec leaves undefined is refused (R51). -/
theorem hostStep_illFormed (hop : op.wellFormed s.params = false) : ∃ r, hostStep op s = .refused r := by
  cases op with
  | read addr bytes | write addr bytes v | check addr bytes v =>
    obtain ⟨r, hr⟩ := (accessRefusal_isSome s.params addr bytes).2 hop
    exact ⟨r, by simp [hostStep, hr]⟩
  | wait | reset => cases hop

/-- Only a defined operation answers a next state. -/
theorem hostStep_next (he : hostStep op s = .next t) : op.wellFormed s.params = true ∧
    t = if op = .wait ∧ s.busy = true then opEffect op s else popOp (opEffect op s) := by
  cases hop : op.wellFormed s.params with
  | false =>
    obtain ⟨r, hr⟩ := hostStep_illFormed hop
    cases hr.symm.trans he
  | true => exact ⟨rfl, Host.Outcome.next.inj (he.symm.trans (hostStep_wellFormed hop))⟩

@[simp] theorem hostCheck_ops (off : Nat) (v : Word) (s : State) : (hostCheck off v s).env.ops = s.env.ops := by
  simp only [hostCheck]; split <;> simp

@[simp] theorem opEffect_params (op : HostOp) (s : State) : (opEffect op s).params = s.params := by
  cases op <;> simp [opEffect]

@[simp] theorem opEffect_ops (op : HostOp) (s : State) : (opEffect op s).env.ops = s.env.ops := by
  cases op <;> simp [opEffect]

/-! ### Refusals -/

/-- Settles O47: neither the idle step nor the core's is ever refused, and the host's is exactly with its operation. -/
theorem refusedExactlyWhenIllFormed : Obligations.RefusedExactlyWhenIllFormed := by
  intro s
  rcases step_cases s with ⟨-, ho, hidle⟩ | ⟨w, hm, -, hcore⟩ | ⟨op, rest, hm, ho, hhost⟩
  · simp [hidle, ho]
  · obtain ⟨t, ht, -⟩ := executeWord_next w (takeTurn s)
    simp [hcore, ht, hm]
  · cases hop : op.wellFormed s.params with
    | false =>
      have hrefused := hostStep_illFormed (s := takeTurn s) (by simpa using hop)
      simp [hhost, hrefused, hm, ho, hop]
    | true => simp [hhost, ho, hop, hostStep_wellFormed (s := takeTurn s) (by simpa using hop)]

/-- Settles O48: every step but a host's refused one answers, and takes nothing but the first operation away. -/
theorem definedProgramNeverStops : Obligations.DefinedProgramNeverStops := by
  intro s hok
  rcases step_cases s with ⟨-, -, hidle⟩ | ⟨w, -, -, hcore⟩ | ⟨op, rest, -, ho, hhost⟩
  · exact ⟨s, hidle, hok⟩
  · obtain ⟨t, ht, henv, hparams, -⟩ := executeWord_next w (takeTurn s)
    exact ⟨t, hcore.trans ht, by simpa [HostProgramOk, henv, hparams] using hok⟩
  · have hop : op.wellFormed s.params = true := hok op (by simp [ho])
    refine ⟨_, hhost.trans (hostStep_wellFormed (by simpa using hop)), ?_⟩
    split
    · simpa [HostProgramOk] using hok
    · intro o hrest
      simpa using hok o (List.mem_of_mem_tail (by simpa using hrest))

/-! ### Accesses of a slot of the window -/

/-- An access of a slot of the window is defined (R50, R51). -/
theorem slot_wellFormed (p : Params) (hoff : off < 0x80) (h4 : off % 4 = 0) :
    (accessWidthOk 4 && accessInWindow p (p.huffBase + off) && accessAligned p (p.huffBase + off)) = true := by
  simp [accessWidthOk, accessInWindow, accessAligned, hoff, h4]

/-- A defined operation that is no `wait` takes one step of the host. -/
theorem step_op (hm : mover s = .host) (ho : s.env.ops = op :: rest) (hop : op.wellFormed s.params = true)
    (hwait : op ≠ .wait) : step s = .next (popOp (opEffect op (takeTurn s))) := by
  rw [step_host hm ho, hostStep_wellFormed (by simpa using hop), if_neg (by simp [hwait])]

theorem step_write_slot (hm : mover s = .host) (hoff : off < 0x80) (h4 : off % 4 = 0)
    (ho : s.env.ops = .write (s.params.huffBase + off) 4 v :: rest) :
    step s = .next (popOp (noteWrite (regAt off) (writeReg (regAt off) v (takeTurn s)))) := by
  simpa [opEffect] using step_op hm ho (slot_wellFormed s.params hoff h4) (by simp)

theorem step_read_slot_eq (hm : mover s = .host) (hoff : off < 0x80) (h4 : off % 4 = 0)
    (ho : s.env.ops = .read (s.params.huffBase + off) 4 :: rest) :
    step s = .next (popOp (hostRead off (takeTurn s))) := by
  simpa [opEffect] using step_op hm ho (slot_wellFormed s.params hoff h4) (by simp)

/-- CMD stands at 0x14 alone (R21). -/
theorem regAt_eq_cmd_iff : regAt off = .cmd ↔ off = 0x14 := by
  unfold regAt
  split <;> simp_all

/-! ### Writes -/

/-- Settles O43: CMD at 0x14, ARG at 0x18, and every other slot ignores the write. -/
theorem writesWhileIdle : Obligations.WritesWhileIdle := by
  intro s rest off v hp hoff h4 ho
  have hidle : s.busy = false := (not_busy_iff s).2 hp
  rw [step_write_slot (mover_idle hidle) hoff h4 ho, takeTurn_idle s hidle]
  split_ifs with hcmd harg
  · subst hcmd
    simp [regAt, writeReg, noteWrite, popOp, hidle, ho]
  · subst harg
    simp [regAt, writeReg, noteWrite, popOp, hidle, ho]
  · rw [writeReg_ignored v s hcmd harg, noteWrite_other s (mt regAt_eq_cmd_iff.1 hcmd)]
    simp [popOp, ho]

/-- With BUSY = 1 a write reaches nothing but OVERRUN (R56). -/
theorem writeReg_busy (v : Word) (hbusy : s.busy = true) : writeReg (regAt off) v s =
    { s with overrun := if off = 0x14 ∨ off = 0x18 then true else s.overrun } := by
  split_ifs with hwritten
  · rcases hwritten with rfl | rfl <;> simp [regAt, writeReg, hbusy]
  · obtain ⟨hcmd, harg⟩ := not_or.1 hwritten
    exact writeReg_ignored v s hcmd harg

/-- Settles O44: the write reaches OVERRUN alone, and all else a host's move does is in the environment. -/
theorem writesWhileBusy : Obligations.WritesWhileBusy := by
  intro s rest off v hbusy hm hoff h4 ho
  refine ⟨_, step_write_slot hm hoff h4 ho, by simp [ho], by simp, ?_⟩
  rw [writeReg_busy v (by simpa using hbusy)]
  simp

/-! ### Reads -/

/-- Every slot from 0x1C to 0x40 holds a register a command in flight may be updating (R57). -/
theorem unspecifiedWhileBusy_regAt_of_mem (hlo : 0x1C ≤ off) (hhi : off ≤ 0x40) (h4 : off % 4 = 0) :
    unspecifiedWhileBusy (regAt off) = true := by
  have hslots : ∀ o, o < 0x41 → 0x1C ≤ o → o % 4 = 0 → unspecifiedWhileBusy (regAt o) = true := by decide
  exact hslots off (by omega) hlo h4

/-- A read that is a draw moves the counter on, and no other does (R57, U8). -/
theorem hostRead_draws (off : Nat) (s : State) : (hostRead off s).env.draws =
    if readIsDraw s (regAt off) then s.env.draws + 1 else s.env.draws := by
  simp only [hostRead, record_env, noteRead_draws, afterRead]
  split <;> rfl

/-- Settles O46: inside the range the read is a draw, outside it is none. -/
theorem readsWhileBusy : Obligations.ReadsWhileBusy := by
  intro s rest off hbusy hm hoff h4 ho
  refine ⟨_, step_read_slot_eq hm hoff h4 ho, by simp [ho], fun ⟨hlo, hhi⟩ => ?_, fun hout => ?_⟩
  · have hdraw : readIsDraw s (regAt off) = true := by
      simp [readIsDraw, hbusy, unspecifiedWhileBusy_regAt_of_mem hlo hhi h4]
    simp [hostRead_draws, readValue, hdraw]
  · have hcontent : readIsDraw s (regAt off) = false := readIsDraw_regAt (.inr hout)
    simp [hostRead_draws, readValue, hcontent]

/-- Settles O45: a read, a check and a poll keep every field but the environment; with BUSY = 0 no read is a draw. -/
theorem readsHaveNoSideEffect : Obligations.ReadsHaveNoSideEffect := by
  intro s t op rest hm ho hop he
  obtain ⟨-, ht⟩ := hostStep_next ((step_host hm ho).symm.trans he)
  refine ⟨?_, ?_⟩
  · rcases hop with rfl | ⟨addr, bytes, rfl⟩ | ⟨addr, bytes, v, rfl⟩
    · rw [ht]
      split <;> simp [opEffect]
    · simp [ht, opEffect]
    · simp [ht, opEffect]
  · rintro hidle off rfl
    simp [ht, opEffect, readValue_idle, hidle]

end Sys2Proof.Machine
end

section
/-! PROOFS. A command neither reads nor writes the environment (10_state.md R20: "the host's program [is] not state"). -/

namespace Sys2Proof.Machine

/-- The same answer, its next state in another environment. -/
def answerInEnv (e : HostEnv) : Result → Result
  | .next t => .next { t with env := e }
  | .fault f => .fault f
  | .refused r => .refused r

/-- A command does in every environment what it does in one: each test and each value it commits is the core's own. -/
theorem exec_env (i : Instr) (s : State) (e : HostEnv) : exec i { s with env := e } = answerInEnv e (exec i s) := by
  have hk : State.k { s with env := e } = s.k := rfl
  cases i with
  | nop | clear | errAck | outClear | outRead => rfl
  | ftAdd | treeInit | codesBuild | heapRead =>
    simp only [exec, execFtAdd, execTreeInit, execCodesBuild, execHeapRead, apply_ite (answerInEnv e)]
    rfl
  | ftRead =>
    simp only [exec, execFtRead, argIndex]
    cases s.ft[s.arg.toNat]? <;> rfl
  | nodeRead =>
    simp only [exec, execNodeRead, argIndex]
    split <;> rfl
  | pqPeek =>
    simp only [exec, execPqPeek]
    cases heapPeekMin s.heap <;> rfl
  | treeStep =>
    simp only [exec, execTreeStep, apply_ite (answerInEnv e)]
    cases mergeTwo s.nodes s.heap <;> rfl
  | treeFinish =>
    simp only [exec, execTreeFinish, apply_ite (answerInEnv e)]
    cases heapDequeue (weightOf s.nodes) s.heap <;> rfl
  | treeBuild =>
    simp only [exec, execTreeBuild, hk, apply_ite (answerInEnv e)]
    cases mergeLoop s.k (leafNodes s.ft) (enqueueLeaves (leafNodes s.ft) s.k) with
    | none => rfl
    | some merged =>
      simp only
      cases heapDequeue (weightOf merged.1) merged.2 <;> rfl
  | codeLen sym | codeWord sym =>
    simp only [exec, execCodeLen, execCodeWord, apply_ite (answerInEnv e)]
    cases lookup s.ft sym <;> rfl
  | encode sym =>
    simp only [exec, execEncode, apply_ite (answerInEnv e)]
    cases lookup s.ft sym with
    | none => rfl
    | some slot =>
      simp only [apply_ite (answerInEnv e)]
      rfl

theorem executeWord_env (w : Word) (s : State) (e : HostEnv) :
    executeWord w { s with env := e } = answerInEnv e (executeWord w s) := by
  unfold executeWord
  cases decodeWord w with
  | ok i => exact exec_env i s e
  | error c => rfl

end Sys2Proof.Machine
end

section
/-! PROOFS. The one outcome of a host program that waits (70_reset_and_hazards.md R234, R240). A busy state has settled once
its command is executed; every step either leaves the settled state as it is (the core's step, a poll that found the core
busy) or takes it to the next one, which the host's next operation determines and the schedule does not. -/

namespace Sys2Proof.Machine

variable {s t : State} {op : HostOp} {rest : List HostOp}

/-! ### What the host's operations do to the outcome with BUSY = 0 -/

@[simp] theorem outcomeOfRun_busy (s : State) : (outcomeOfRun s).busy = s.busy := rfl

theorem outcomeOfRun_idem (s : State) : outcomeOfRun (outcomeOfRun s) = outcomeOfRun s := by simp [outcomeOfRun]

theorem regContent_outcomeOfRun (s : State) (r : Reg) : regContent (outcomeOfRun s) r = regContent s r :=
  regContent_env s _ r

theorem isBusyPoll_poll (s : State) : isBusyPoll (.poll (regContent s .status)) = s.busy := isBusyPoll_statusWord s

theorem outcomeOfRun_record {e : TraceEntry} (he : isBusyPoll e = false) (s : State) :
    outcomeOfRun (record [e] s) = record [e] (outcomeOfRun s) := by
  simp [record, outcomeOfRun, he]

theorem outcomeOfRun_noteRead (r : Reg) (s : State) : outcomeOfRun (noteRead r s) = noteRead r (outcomeOfRun s) :=
  apply_ite outcomeOfRun _ _ _

theorem outcomeOfRun_noteWrite (r : Reg) (s : State) : outcomeOfRun (noteWrite r s) = noteWrite r (outcomeOfRun s) :=
  apply_ite outcomeOfRun _ _ _

theorem outcomeOfRun_writeReg (r : Reg) (v : Word) (s : State) :
    outcomeOfRun (writeReg r v s) = writeReg r v (outcomeOfRun s) := by
  cases r with
  | cmd | arg => exact apply_ite outcomeOfRun _ _ _
  | _ => rfl

theorem outcomeOfRun_popOp (s : State) : outcomeOfRun (popOp s) = popOp (outcomeOfRun s) := rfl

theorem outcomeOfRun_takeTurn (s : State) : outcomeOfRun (takeTurn s) = outcomeOfRun s := by
  unfold takeTurn
  split <;> rfl

theorem readValue_outcomeOfRun (hidle : s.busy = false) (r : Reg) : readValue (outcomeOfRun s) r = readValue s r := by
  rw [readValue_idle r hidle, readValue_idle r (by simpa using hidle), regContent_outcomeOfRun]

theorem outcomeOfRun_hostRead (off : Nat) (hidle : s.busy = false) :
    outcomeOfRun (hostRead off s) = hostRead off (outcomeOfRun s) := by
  rw [hostRead, outcomeOfRun_record rfl, outcomeOfRun_noteRead, hostRead, readValue_outcomeOfRun hidle,
    afterRead_idle _ hidle, afterRead_idle _ (by simpa using hidle)]

theorem outcomeOfRun_hostCheck (off : Nat) (v : Word) (hidle : s.busy = false) :
    outcomeOfRun (hostCheck off v s) = hostCheck off v (outcomeOfRun s) := by
  simp only [hostCheck, readValue_outcomeOfRun hidle, ← outcomeOfRun_hostRead off hidle]
  split
  · rfl
  · exact outcomeOfRun_record rfl _

theorem outcomeOfRun_hostPoll (hidle : s.busy = false) : outcomeOfRun (hostPoll s) = hostPoll (outcomeOfRun s) := by
  rw [hostPoll, outcomeOfRun_record ((isBusyPoll_poll s).trans hidle), outcomeOfRun_noteRead, hostPoll,
    regContent_outcomeOfRun]

/-- A poll that found the core busy is no part of the outcome (R240; log entry 11). -/
theorem outcomeOfRun_hostPoll_busy (hbusy : s.busy = true) : outcomeOfRun (hostPoll s) = outcomeOfRun s := by
  simp [hostPoll, noteRead, record, outcomeOfRun, isBusyPoll_poll, hbusy]

/-- With BUSY = 0 an operation sees nothing of what the outcome leaves out. -/
theorem outcomeOfRun_opEffect (op : HostOp) (hidle : s.busy = false) :
    outcomeOfRun (opEffect op s) = opEffect op (outcomeOfRun s) := by
  cases op with
  | read addr bytes => exact outcomeOfRun_hostRead _ hidle
  | write addr bytes v => exact (outcomeOfRun_noteWrite _ _).trans (congrArg _ (outcomeOfRun_writeReg _ v s))
  | check addr bytes v => exact outcomeOfRun_hostCheck _ v hidle
  | wait => exact outcomeOfRun_hostPoll hidle
  | reset => rfl

/-! ### The settled state -/

/-- The outcome of the state once the command in flight, if there is one, has been executed. -/
def settled (s : State) : State :=
  match s.pending with
  | none => outcomeOfRun s
  | some w =>
    match executeWord w s with
    | .next t => outcomeOfRun t
    | .fault _ | .refused _ => outcomeOfRun s

theorem settled_idle (hidle : s.busy = false) : settled s = outcomeOfRun s := by
  simp [settled, (not_busy_iff s).1 hidle]

theorem settled_pending {w : Word} (hp : s.pending = some w) (ht : executeWord w s = .next t) :
    settled s = outcomeOfRun t := by
  simp [settled, hp, ht]

/-- The outcome determines all but the environment. -/
theorem eq_of_outcomeOfRun_eq (h : outcomeOfRun s = outcomeOfRun t) : s = { t with env := s.env } := by
  cases s
  cases t
  simp_all [outcomeOfRun]

/-- The outcome determines the settled state, since the command in flight keeps the environment. -/
theorem settled_congr (h : outcomeOfRun s = outcomeOfRun t) : settled s = settled t := by
  have hs : s = { t with env := s.env } := eq_of_outcomeOfRun_eq h
  have hpending : s.pending = t.pending := by rw [hs]
  cases hp : t.pending with
  | none => rw [settled_idle ((not_busy_iff t).2 hp), settled_idle ((not_busy_iff s).2 (hpending.trans hp)), h]
  | some w =>
    obtain ⟨u, hu, henv, -⟩ := executeWord_next w t
    have hsu : executeWord w s = .next { u with env := s.env } := by
      rw [hs, executeWord_env, hu]
      rfl
    have henvs := congrArg State.env h
    rw [settled_pending hp hu, settled_pending (hpending.trans hp) hsu]
    simp only [outcomeOfRun] at henvs ⊢
    rw [henvs, henv]

/-- The settled state after the next step from a settled one. -/
def nextSettled (s : State) : State :=
  match step s with
  | .next t => settled t
  | .fault _ | .refused _ => s

theorem step_idle (hidle : s.busy = false) (ho : s.env.ops = op :: rest) (hop : op.wellFormed s.params = true) :
    step s = .next (popOp (opEffect op s)) := by
  rw [step_host (mover_idle hidle) ho, takeTurn_idle s hidle, hostStep_wellFormed hop, if_neg (by simp [hidle])]

theorem step_done (hidle : s.busy = false) (ho : s.env.ops = []) : step s = .next s := by
  simp [step, mover_idle hidle, ho]

/-- The next settled state of an idle core is that after the host's next operation, with the schedule or without. -/
theorem nextSettled_outcomeOfRun (hidle : s.busy = false) (ho : s.env.ops = op :: rest)
    (hop : op.wellFormed s.params = true) : nextSettled (outcomeOfRun s) = settled (popOp (opEffect op s)) := by
  have hstep : step (outcomeOfRun s) = .next (outcomeOfRun (popOp (opEffect op s))) := by
    rw [step_idle (s := outcomeOfRun s) hidle ho hop, outcomeOfRun_popOp, outcomeOfRun_opEffect op hidle]
  rw [nextSettled, hstep]
  exact settled_congr (outcomeOfRun_idem _)

/-- With no operation left an idle core has settled for good (R226). -/
theorem nextSettled_isFixedPt (hidle : s.busy = false) (ho : s.env.ops = []) :
    Function.IsFixedPt nextSettled (outcomeOfRun s) := by
  have hstep : step (outcomeOfRun s) = .next (outcomeOfRun s) := step_done (s := outcomeOfRun s) hidle ho
  rw [Function.IsFixedPt, nextSettled, hstep]
  exact (settled_idle (s := outcomeOfRun s) hidle).trans (outcomeOfRun_idem s)

/-! ### Runs of a program that waits -/

/-- The program waits after every command (R79, R234), so that while one is in flight the host polls. -/
structure Waiting (s : State) : Prop where
  program : waitsAfterCommands s.params s.env.ops = true
  polling : s.busy = true → ∃ rest, s.env.ops = .wait :: rest

theorem Waiting.of_idle (hprogram : waitsAfterCommands s.params s.env.ops = true) (hidle : s.busy = false) :
    Waiting s :=
  ⟨hprogram, fun hbusy => by simp [hidle] at hbusy⟩

theorem waitsAfterCommands_cons (p : Params) (op : HostOp) (rest : List HostOp) :
    waitsAfterCommands p (op :: rest) = true ↔
      (isCommandWrite p op = true → rest.head? = some .wait) ∧ waitsAfterCommands p rest = true := by
  cases h : isCommandWrite p op <;> simp [waitsAfterCommands, h]

/-- Only a write to CMD latches a word (R22, R54). -/
theorem writeReg_pending_of_ne_cmd {r : Reg} (v : Word) (s : State) (hr : r ≠ .cmd) :
    (writeReg r v s).pending = s.pending := by
  cases r with
  | cmd => exact absurd rfl hr
  | arg =>
    simp only [writeReg]
    split <;> rfl
  | _ => rfl

/-- An operation that leaves an idle core busy is a CMD write. -/
theorem isCommandWrite_of_busy (hidle : s.busy = false) (hop : op.wellFormed s.params = true)
    (hbusy : (opEffect op s).busy = true) : isCommandWrite s.params op = true := by
  cases op with
  | write addr bytes v =>
    by_cases hcmd : windowOffset s.params addr = 0x14
    · simp [isCommandWrite, accessRefusal_none hop, hcmd]
    · have hkept := writeReg_pending_of_ne_cmd v s (mt regAt_eq_cmd_iff.1 hcmd)
      simp [opEffect, State.busy, hkept, (not_busy_iff s).1 hidle] at hbusy
  | read addr bytes | check addr bytes v | wait | reset =>
    simp [opEffect, State.busy, (not_busy_iff s).1 hidle] at hbusy

/-- A step keeps the settled state or takes it to the next one. -/
theorem Waiting.step (h : Waiting s) (he : step s = .next t) :
    Waiting t ∧ (settled t = settled s ∨ settled t = nextSettled (settled s)) := by
  obtain ⟨hprogram, hpolling⟩ := h
  rcases step_cases s with ⟨-, -, hidle⟩ | ⟨w, -, hp, hcore⟩ | ⟨op, rest, -, ho, hhost⟩
  · obtain rfl : s = t := Host.Outcome.next.inj (hidle.symm.trans he)
    exact ⟨⟨hprogram, hpolling⟩, .inl rfl⟩
  · obtain ⟨u, hu, henv, hparams, -, hdone⟩ := executeWord_next w (takeTurn s)
    obtain rfl : u = t := Host.Outcome.next.inj (hu.symm.trans (hcore.symm.trans he))
    have hidle : u.busy = false := (not_busy_iff u).2 hdone
    refine ⟨.of_idle (by simpa [henv, hparams] using hprogram) hidle, .inl ?_⟩
    rw [settled_idle hidle, ← settled_congr (outcomeOfRun_takeTurn s), settled_pending (by simpa using hp) hu]
  · obtain ⟨hop, ht⟩ := hostStep_next (hhost.symm.trans he)
    rw [takeTurn_params] at hop
    cases hbusy : s.busy with
    | true =>
      obtain ⟨rest', hwait⟩ := hpolling hbusy
      obtain ⟨rfl, rfl⟩ := List.cons.inj (ho.symm.trans hwait)
      obtain rfl : t = hostPoll (takeTurn s) := by simpa [opEffect, hbusy] using ht
      refine ⟨⟨by simpa using hprogram, fun _ => ⟨rest, by simpa using ho⟩⟩, .inl (settled_congr ?_)⟩
      rw [outcomeOfRun_hostPoll_busy (by simpa using hbusy), outcomeOfRun_takeTurn]
    | false =>
      obtain rfl : t = popOp (opEffect op s) := by simpa [takeTurn_idle s hbusy, hbusy] using ht
      rw [ho, waitsAfterCommands_cons] at hprogram
      obtain ⟨hwait, hrest⟩ := hprogram
      refine ⟨⟨by simpa [ho] using hrest, fun hlatched => ?_⟩, .inr ?_⟩
      · have hhead := hwait (isCommandWrite_of_busy hbusy hop hlatched)
        simpa [ho, List.head?_eq_some_iff] using hhead
      · rw [settled_idle hbusy, nextSettled_outcomeOfRun hbusy ho hop]

/-- A run passes through the settled states in their order. -/
theorem Waiting.runSteps {n : Nat} (h : Waiting s) (he : runSteps n s = .next t) :
    Waiting t ∧ ∃ j, settled t = nextSettled^[j] (settled s) := by
  induction n generalizing s with
  | zero =>
    obtain rfl : s = t := Host.Outcome.next.inj he
    exact ⟨h, 0, rfl⟩
  | succ n ih =>
    rw [Machine.runSteps] at he
    split at he
    · next s' hs' =>
      obtain ⟨h', hsettled⟩ := h.step hs'
      obtain ⟨hend, j, hj⟩ := ih h' he
      rcases hsettled with hsame | hnext
      · exact ⟨hend, j, hsame ▸ hj⟩
      · exact ⟨hend, j + 1, by rw [hj, hnext, Function.iterate_succ_apply]⟩
    · cases he
    · cases he

/-- A run that has ended left no command in flight. -/
theorem Waiting.busy_of_runEnded (h : Waiting t) (hend : runEnded t) : t.busy = false := by
  obtain ⟨hops, -⟩ := hend
  refine Bool.eq_false_iff.2 fun hbusy => ?_
  obtain ⟨rest, hwait⟩ := h.polling hbusy
  cases hops.symm.trans hwait

/-- The outcome of a run that has ended is a settled state the run passes through, and the last. -/
theorem Waiting.outcomeOfRun_of_runEnded {n : Nat} (h : Waiting s) (he : Machine.runSteps n s = .next t)
    (hend : runEnded t) :
    (∃ j, outcomeOfRun t = nextSettled^[j] (settled s)) ∧ Function.IsFixedPt nextSettled (outcomeOfRun t) := by
  obtain ⟨ht, j, hj⟩ := h.runSteps he
  have hidle : t.busy = false := ht.busy_of_runEnded hend
  exact ⟨⟨j, (settled_idle hidle).symm.trans hj⟩, nextSettled_isFixedPt hidle hend.1⟩

/-- Settles O58: both runs pass through the settled states of the same first one, and each ends at their fixed point. -/
theorem waitingProgramHasOneOutcome : Obligations.WaitingProgramHasOneOutcome := by
  intro s turns m n t u hp hprogram hm ht hn hu
  have hidle : s.busy = false := (not_busy_iff s).2 hp
  obtain ⟨⟨j, hj⟩, htfixed⟩ := (Waiting.of_idle hprogram hidle).outcomeOfRun_of_runEnded hm ht
  obtain ⟨⟨k, hk⟩, hufixed⟩ :=
    (Waiting.of_idle (s := { s with env := { s.env with turns := turns } }) hprogram hidle).outcomeOfRun_of_runEnded hn hu
  have hstart : settled { s with env := { s.env with turns := turns } } = settled s := settled_congr rfl
  rw [hstart] at hk
  calc outcomeOfRun t
      _ = nextSettled^[k] (outcomeOfRun t) := (htfixed.iterate k).symm
      _ = nextSettled^[k] (nextSettled^[j] (settled s)) := by rw [hj]
      _ = nextSettled^[j] (nextSettled^[k] (settled s)) := Function.Commute.iterate_iterate_self _ k j _
      _ = nextSettled^[j] (outcomeOfRun u) := by rw [hk]
      _ = outcomeOfRun u := hufixed.iterate j

end Sys2Proof.Machine
end

section
/-! PROOFS. Decode and encode (30_encoding.md R70 to R77; 20_memory.md R52): the table of R73 read both ways. -/

namespace Sys2Proof.Machine

/-! ### The rows of R73 -/

/-- A row's opcode, with the symbol where the row takes one, are the fields of the instruction it selects (R73). -/
theorem fields_of_opcodeRow {opc : BitVec 8} {sym : Symbol} {i : Instr} (h : opcodeRow opc sym = some i) :
    i.fields = ⟨opc, 0#8, if takesSymbol i then sym else 0#16⟩ := by
  unfold opcodeRow at h
  split at h
  case h_19 => cases h
  all_goals
    next hopc =>
    have hfields : i.fields.opc = opc := by cases h; exact BitVec.eq_of_toNat_eq hopc.symm
    subst hfields
    cases h
    rfl

/-- R75: the opcodes of no row. -/
theorem opcodeRow_eq_none_iff {opc : BitVec 8} {sym : Symbol} : opcodeRow opc sym = none ↔
    (0x04 ≤ opc.toNat ∧ opc.toNat ≤ 0x0F) ∨ (0x12 ≤ opc.toNat ∧ opc.toNat ≤ 0x1F) ∨
      (0x25 ≤ opc.toNat ∧ opc.toNat ≤ 0x27) ∨ (0x2A ≤ opc.toNat ∧ opc.toNat ≤ 0x2F) ∨
      (0x33 ≤ opc.toNat ∧ opc.toNat ≤ 0x3F) ∨ 0x42 ≤ opc.toNat := by
  unfold opcodeRow
  split
  case h_19 => simp only [true_iff, imp_false] at *; omega
  all_goals
    next hopc => simp [hopc]

/-- The opcodes of the rows with "symbol" in their SYM column (R73). -/
theorem takesSymbol_eq_false_iff (i : Instr) : takesSymbol i = false ↔
    i.fields.opc.toNat ≠ 0x10 ∧ i.fields.opc.toNat ≠ 0x31 ∧ i.fields.opc.toNat ≠ 0x32 ∧ i.fields.opc.toNat ≠ 0x40 := by
  cases i <;> simp [takesSymbol, Instr.fields]

/-! ### Decode -/

/-- What passes the three tests of R74. -/
theorem decodeFields_eq_ok_iff {c : CommandWord} {i : Instr} : decodeFields c = .ok i ↔
    opcodeRow c.opc c.sym = some i ∧ c.rsv = 0#8 ∧ (takesSymbol i = false → c.sym = 0#16) := by
  rw [decodeFields]
  cases opcodeRow c.opc c.sym with
  | none => simp
  | some j =>
    simp only [Option.some.injEq]
    split_ifs with hrsv hsym
    · simp [hrsv]
    · have hne : j = i → ¬ (takesSymbol i = false → c.sym = 0#16) := by
        rintro rfl htest
        exact hsym.2 (htest hsym.1)
      simpa [not_not.1 hrsv, hsym] using hne
    · have hok : j = i → takesSymbol i = false → c.sym = 0#16 := by
        rintro rfl
        simpa using hsym
      simpa [not_not.1 hrsv] using hok

/-- A command word that decodes has the fields of its instruction (R73, R76). -/
theorem fields_of_decodeFields {c : CommandWord} {i : Instr} (h : decodeFields c = .ok i) : i.fields = c := by
  obtain ⟨hrow, hrsv, hsym⟩ := decodeFields_eq_ok_iff.1 h
  rw [fields_of_opcodeRow hrow, ← hrsv]
  cases htakes : takesSymbol i with
  | true => rfl
  | false => simp [← hsym htakes]

theorem decodeFields_eq_error_iff {c : CommandWord} :
    (∃ e, decodeFields c = .error e) ↔ ¬ ∃ i, decodeFields c = .ok i := by
  cases decodeFields c <;> simp

theorem decodeWord_joinWord (c : CommandWord) : decodeWord (joinWord c) = decodeFields c := by
  rw [decodeWord, splitWord_joinWord]

/-- The four bytes of a word decode as the word, and what follows them is left over (R52, R77). -/
theorem decodeBytes_bytesOfWord_append (w : Word) (rest : List Byte) :
    decodeBytes (bytesOfWord w ++ rest) = (decodeWord w).map (·, rest) := by
  simp only [bytesOfWord, List.cons_append, decodeBytes, wordOfBytes_bytesOfWord]
  cases decodeWord w <;> rfl

/-- Settles O1: the word of an instruction decodes to it, and its bytes decode as the word. -/
theorem decodeOfEncodeIsTheInstruction : Obligations.DecodeOfEncodeIsTheInstruction := by
  intro i rest
  refine ⟨decodeWord_encode i, ?_⟩
  rw [encodeBytes, decodeBytes_bytesOfWord_append, decodeWord_encode]
  rfl

/-- Settles O2: the fields of the word are those of the instruction, and a word is its fields. -/
theorem encodeOfDecodeIsTheWord : Obligations.EncodeOfDecodeIsTheWord := by
  intro w i h
  rw [encode, fields_of_decodeFields h, joinWord_splitWord]

/-- R70: the fields weigh by their places. -/
theorem joinWord_toNat (c : CommandWord) :
    (joinWord c).toNat = c.opc.toNat * 2 ^ 24 + c.rsv.toNat * 2 ^ 16 + c.sym.toNat := by
  simp only [joinWord, toNat_append_eq_add]
  omega

/-- Settles O3: a word that no row's tests pass; whether the row takes a symbol is read off its opcode. -/
theorem illegalWordsAreTheReservedOnes : Obligations.IllegalWordsAreTheReservedOnes := by
  intro w opc rsv sym hw hopc hrsv hsym
  obtain ⟨c, rfl⟩ : ∃ c, w = joinWord c := ⟨splitWord w, (joinWord_splitWord w).symm⟩
  rw [joinWord_toNat] at hw
  obtain ⟨rfl, rfl, rfl⟩ : opc = c.opc.toNat ∧ rsv = c.rsv.toNat ∧ sym = c.sym.toNat := by omega
  rw [decodeWord_joinWord, decodeFields_eq_error_iff, ← opcodeRow_eq_none_iff (sym := c.sym)]
  simp only [decodeFields_eq_ok_iff]
  cases hrow : opcodeRow c.opc c.sym with
  | none => simp
  | some i =>
    have hfields : i.fields.opc = c.opc := by rw [fields_of_opcodeRow hrow]
    simp [takesSymbol_eq_false_iff, hfields, ← BitVec.toNat_inj, imp_iff_not_or, and_assoc]

/-- The bytes of an instruction's word decode to it by the numbering of the opcode table (R9, R52). -/
theorem decodeTableWord_encode (i : Instr) : decodeTableWord 32 (encode i).toNat = some i := by
  have hbytes : decodeBytes (bytesOfWord (encode i)) = .ok (i, []) := by
    simpa [encodeBytes] using (decodeOfEncodeIsTheInstruction i []).2
  rw [decodeTableWord, tableWord_toNat, hbytes]

/-- Settles O4: the legal words are those of their instructions, the others fail a test of R74. -/
theorem wordsOfTheSpecDecode : Obligations.WordsOfTheSpecDecode :=
  ⟨decodeTableWord_encode .nop, rfl, decodeTableWord_encode (.ftAdd 0x0041#16), rfl, rfl, rfl,
    decodeTableWord_encode (.codeWord 0x0044#16), decodeTableWord_encode .treeBuild⟩

end Sys2Proof.Machine
end

section
/-! PROOFS. HUFFASM's expansions and the busy hazard rule (30_encoding.md R79; 70_reset_and_hazards.md R234). -/

namespace Sys2Proof.Machine

variable {p : Params}

/-- One program after another: the wait after a command of the first is in the first. -/
theorem waitsAfterCommands_append {ops rest : List HostOp} (hops : waitsAfterCommands p ops = true)
    (hrest : waitsAfterCommands p rest = true) : waitsAfterCommands p (ops ++ rest) = true := by
  induction ops with
  | nil => exact hrest
  | cons op ops ih =>
    obtain ⟨hwait, hops⟩ := (waitsAfterCommands_cons p op ops).1 hops
    refine (waitsAfterCommands_cons p op (ops ++ rest)).2 ⟨fun hcmd => ?_, ih hops⟩
    simp [hwait hcmd]

theorem waitsAfterCommands_flatMap {α : Type} {f : α → List HostOp} {l : List α}
    (h : ∀ a ∈ l, waitsAfterCommands p (f a) = true) : waitsAfterCommands p (l.flatMap f) = true := by
  induction l with
  | nil => rfl
  | cons a l ih =>
    obtain ⟨ha, hl⟩ := List.forall_mem_cons.1 h
    exact waitsAfterCommands_append ha (ih hl)

theorem isCommandWrite_busWrite_arg (v : Word) : isCommandWrite p (busWrite p .arg v) = false := by
  simp [isCommandWrite, busWrite, hostAddress, regOffset]

/-- A command pseudo-instruction ends with its wait, and its write to ARG is none to CMD (R79). -/
theorem waitsAfterCommands_commandOps (i : Instr) (arg : Option Word) :
    waitsAfterCommands p (commandOps p i arg) = true := by
  have hcommand : waitsAfterCommands p [busWrite p .cmd (encode i), .wait] = true :=
    (waitsAfterCommands_cons ..).2 ⟨fun _ => rfl, rfl⟩
  cases arg with
  | none => exact hcommand
  | some a => exact (waitsAfterCommands_cons ..).2 ⟨by simp [isCommandWrite_busWrite_arg], hcommand⟩

/-- Only the raw writes of R78 can expand to a CMD write without its wait. -/
theorem waitsAfterCommands_expandOp {op : AsmOp} (hwrite : ∀ off v, op ≠ .write off v) (hcmd : ∀ w, op ≠ .cmd w) :
    waitsAfterCommands p (expandOp p op) = true := by
  cases op with
  | write off v => exact absurd rfl (hwrite off v)
  | cmd w => exact absurd rfl (hcmd w)
  | read off | wait | check off v => rfl
  | command i arg => exact waitsAfterCommands_commandOps i arg
  | loadFreqs t | encodeStr t => exact waitsAfterCommands_flatMap fun c _ => waitsAfterCommands_commandOps _ _
  | build => exact waitsAfterCommands_append (waitsAfterCommands_commandOps _ _) (waitsAfterCommands_commandOps _ _)

/-- Settles O57: each operation's expansion waits, and so does the concatenation. -/
theorem pseudoInstructionsWait : Obligations.PseudoInstructionsWait := fun _ _ hprog =>
  waitsAfterCommands_flatMap fun op hop => waitsAfterCommands_expandOp (hprog op hop).1 (hprog op hop).2

end Sys2Proof.Machine
end

section
/-! PROOFS. The priority queue (40_priority_queue.md R100 to R108): the two sifts as loops without the model's fuel, and the
queue's two queries. -/

namespace Sys2Proof.Machine

variable {key : Word → Word} {h : List Word} {s : State} {n : Word}

/-! ### The loops of Enqueue and Dequeue -/

/-- One round of Enqueue's loop (R101), at any fuel from the position on. -/
theorem siftUp_round {fuel i : Nat} (hfuel : i ≤ fuel) : siftUp key fuel h i =
    if 0 < i ∧ (key (heapAt h i)).toNat < (key (heapAt h (heapParent i))).toNat then
      siftUp key fuel (heapSwap h i (heapParent i)) (heapParent i)
    else h := by
  rw [siftUp_fuel key fuel (fuel + 1) h i hfuel (by omega), siftUp]
  rcases Nat.eq_zero_or_pos i with rfl | hpos
  · simp
  · simp only [hpos.ne', hpos, true_and, if_false]

/-- One round of Dequeue's loop (R102), at any fuel that covers the queue. -/
theorem siftDown_round {fuel : Nat} (hfuel : h.length ≤ fuel) (i : Nat) : siftDown key fuel h i =
    if heapLeft i < h.length ∧ (key (heapAt h (lighterChild key h i))).toNat < (key (heapAt h i)).toNat then
      siftDown key fuel (heapSwap h i (lighterChild key h i)) (lighterChild key h i)
    else h := by
  rw [siftDown_fuel key fuel (fuel + 1) h i (by omega) (by omega), siftDown]
  by_cases hleft : heapLeft i < h.length
  · simp only [hleft, true_and, ← Nat.not_lt, not_true, if_false, ite_not]
  · rw [if_pos (Nat.le_of_not_lt hleft), if_neg (fun hround => hleft hround.1)]

/-- Dequeue of two or more entries (R102): the first is the answer, the last takes its place and sifts down. -/
theorem heapDequeue_cons_concat (key : Word → Word) (x y : Word) (mid : List Word) :
    heapDequeue key (x :: (mid ++ [y])) = some (x, siftDown key (y :: mid).length (y :: mid) 0) := by
  have hfirst : heapAt (x :: (mid ++ [y])) 0 = x := by simp [heapAt]
  have hlast : heapAt (x :: (mid ++ [y])) (mid.length + 1) = y := by simp [heapAt]
  simp [heapDequeue, hfirst, hlast]

/-- Settles O60: each sift by its round, at the fuel the operation starts with. -/
theorem queueOperationsFollowTheirLoops : Obligations.QueueOperationsFollowTheirLoops := by
  intro key
  refine ⟨fun h n => ?_, fun h i hi => siftUp_round hi.le, heapDequeue_none.2 rfl, heapDequeue_singleton key,
    heapDequeue_cons_concat key, fun h i => siftDown_round (Nat.le_refl _) i⟩
  rw [heapEnqueue, List.length_append, List.length_singleton]

/-! ### The queries -/

/-- PQ_PEEK of a non-empty queue (R103, R107). -/
theorem exec_pqPeek_of_head? (hn : s.heap.head? = some n) :
    exec .pqPeek s = .next { completed s with res0 := n, res1 := weightOf s.nodes n } := by
  show execPqPeek s = _
  rw [execPqPeek, heapPeekMin_eq, hn]
  rfl

/-- PQ_PEEK of an empty queue (R103, R107). -/
theorem exec_pqPeek_of_empty (he : s.heap = []) : exec .pqPeek s = .next (aborted .emptyQueue s) := by
  show execPqPeek s = _
  rw [execPqPeek, heapPeekMin_eq, he]
  exact raise_eq _ s (by decide)

/-- HEAP_READ of a valid position (R108). -/
theorem exec_heapRead_of_getElem? (hn : s.heap[s.arg.toNat]? = some n) :
    exec .heapRead s = .next { completed s with res0 := n, res1 := weightOf s.nodes n } := by
  have hvalid : ¬ s.pqCount ≤ argIndex s := Nat.not_le.2 (List.getElem?_eq_some_iff.1 hn).1
  have hentry : heapAt s.heap (argIndex s) = n := by simp [heapAt, argIndex, hn]
  show execHeapRead s = _
  rw [execHeapRead, if_neg hvalid, hentry]
  rfl

/-- The queue of a well-formed state is in heap order in every phase (R39, R100): it is empty where nothing is queued. -/
theorem State.Inv.heapProperty (hs : s.Inv) : HeapProperty (weightOf s.nodes) s.heap := by
  have hphase := hs.phaseOk
  cases hp : s.phase with
  | queued => exact (hs.queueOk hp).ordered
  | loading => rw [((phaseOk_loading hp).1 hphase).1.heap]; exact heapProperty_nil _
  | tree => rw [(hs.treeDone (.inl hp)).queue]; exact heapProperty_nil _
  | coded => rw [(hs.treeDone (.inr hp)).queue]; exact heapProperty_nil _

/-- The first entry of a queue in heap order is no heavier than any other (R100). -/
theorem HeapProperty.head_le {rest : List Word} (hh : HeapProperty key (n :: rest)) :
    ∀ c ∈ rest, (key n).toNat ≤ (key c).toNat := by
  intro c hc
  obtain ⟨i, hi, rfl⟩ := List.getElem_of_mem hc
  simpa [heapAt, hi] using heap_first_le hh (i + 1) (by simpa using hi)

/-- Settles O31: the queue of a well-formed state is in heap order, so the first entry is a least one. -/
theorem pqPeekReturnsTheMinimum : Obligations.PqPeekReturnsTheMinimum := by
  refine fun s => ⟨fun n rest hheap => ⟨exec_pqPeek_of_head? (by rw [hheap, List.head?_cons]), fun hs => ?_⟩,
    exec_pqPeek_of_empty⟩
  have hordered := hs.heapProperty
  rw [hheap] at hordered
  exact hordered.head_le

/-- Settles O32: the entry at position 0 is the head of the queue, which PQ_PEEK answers. -/
theorem heapReadReturnsTheEntry : Obligations.HeapReadReturnsTheEntry := by
  intro s n hn
  refine ⟨exec_heapRead_of_getElem? hn, fun harg => ?_⟩
  have hhead : s.heap.head? = some n := by simpa [harg, List.head?_eq_getElem?] using hn
  rw [exec_heapRead_of_getElem? hn, exec_pqPeek_of_head? hhead]

end Sys2Proof.Machine
end

section
/-! PROOFS. The frequency table (41_frequency_table.md R121 to R123): what Lookup finds, and FT_ADD and FT_READ
check by check. -/

namespace Sys2Proof.Machine

variable {s : State} {sym : Symbol}

/-! ### Lookup -/

/-- Lookup finds exactly the loaded symbols (R121). -/
theorem lookup_ne_none_iff {ft : List FtEntry} : lookup ft sym ≠ none ↔ ∃ e ∈ ft, e.sym = sym := by
  simp [lookup_eq_none]

/-- In a table of distinct symbols the slot that Lookup finds is the only one of its symbol (R121). -/
theorem lookup_eq_some_iff {ft : List FtEntry} (hunique : (ft.map FtEntry.sym).Nodup) {i : Nat} :
    lookup ft sym = some i ↔ (ft[i]?).map FtEntry.sym = some sym := by
  constructor
  · intro hfound
    obtain ⟨e, he, rfl⟩ := lookup_some hfound
    rw [he, Option.map_some]
  · intro hi
    obtain ⟨e, he, rfl⟩ := Option.map_eq_some_iff.1 hi
    obtain ⟨j, hj⟩ := lookup_isSome_of_mem (List.mem_of_getElem? he)
    obtain ⟨e', he', hsym⟩ := lookup_some hj
    have hlt : i < (ft.map FtEntry.sym).length := by simpa using (List.getElem?_eq_some_iff.1 he).1
    have hij : i = j := (List.getElem?_inj hlt hunique).1 (by simp [he, he', hsym])
    rw [hj, hij]

/-- Settles O22: the symbols of a well-formed table are distinct. -/
theorem lookupFindsExactlyTheLoadedSymbols : Obligations.LookupFindsExactlyTheLoadedSymbols :=
  fun _ _ _ hs => lookup_eq_some_iff hs.unique

/-! ### FT_ADD -/

/-- FT_ADD reports the first of its five checks that fails, or appends the entry (R122). -/
theorem exec_ftAdd (sym : Symbol) (s : State) : exec (.ftAdd sym) s = .next (
    if s.phase ≠ .loading then aborted .sequence s
    else if s.arg = 0#32 then aborted .zeroFrequency s
    else if ∃ e ∈ s.ft, e.sym = sym then aborted .duplicateSymbol s
    else if s.k = s.params.maxSyms then aborted .alphabetFull s
    else if 0xFFFFFFFF < s.totalW.toNat + s.arg.toNat then aborted .weightOverflow s
    else { completed s with ft := s.ft ++ [{ sym := sym, freq := s.arg }], totalW := s.totalW + s.arg }) := by
  show execFtAdd sym s = _
  simp only [execFtAdd, lookup_ne_none_iff, maxWord, ne_eq, reduceCtorEq, not_false_eq_true, raise_eq, finish_eq,
    apply_ite Host.Outcome.next]
  rfl

/-- Settles O18: all five checks pass, and a sum that fits is the exact one. -/
theorem ftAddAppendsTheEntry : Obligations.FtAddAppendsTheEntry := by
  intro s sym hp harg hnew hroom hfits
  refine ⟨s.totalW + s.arg, BitVec.toNat_add_of_lt (by omega), ?_⟩
  rw [exec_ftAdd, if_neg (not_not.2 hp), if_neg harg, if_neg (by simpa using hnew), if_neg hroom,
    if_neg (Nat.not_lt.2 hfits)]

/-- Settles O19: each check is reached where those before it pass. -/
theorem ftAddChecksInOrder : Obligations.FtAddChecksInOrder := by
  intro s sym
  rw [exec_ftAdd]
  refine ⟨fun hp => ?sequence, fun hp harg => ?zeroFrequency, fun hp harg hdup => ?duplicateSymbol,
    fun hp harg hnew hfull => ?alphabetFull, fun hp harg hnew hroom hover => ?weightOverflow⟩
  case sequence => rw [if_pos hp]
  case zeroFrequency => rw [if_neg (not_not.2 hp), if_pos harg]
  case duplicateSymbol => rw [if_neg (not_not.2 hp), if_neg harg, if_pos hdup]
  case alphabetFull => rw [if_neg (not_not.2 hp), if_neg harg, if_neg (by simpa using hnew), if_pos hfull]
  case weightOverflow =>
    rw [if_neg (not_not.2 hp), if_neg harg, if_neg (by simpa using hnew), if_neg hroom, if_pos hover]

/-! ### FT_READ -/

theorem zextSymbol_toNat (sym : Symbol) : (zextSymbol sym).toNat = sym.toNat :=
  BitVec.toNat_setWidth_of_le (by decide)

/-- FT_READ of a valid slot (R123). -/
theorem exec_ftRead_of_getElem? {e : FtEntry} (he : s.ft[s.arg.toNat]? = some e) :
    exec .ftRead s = .next { completed s with res0 := e.freq, res1 := zextSymbol e.sym } := by
  show execFtRead s = _
  rw [execFtRead, argIndex, he]
  rfl

/-- Settles O20: the word in RES1 is the symbol, zero-extended. -/
theorem ftReadReturnsTheEntry : Obligations.FtReadReturnsTheEntry := fun _ e he =>
  ⟨zextSymbol e.sym, zextSymbol_toNat e.sym, exec_ftRead_of_getElem? he⟩

end Sys2Proof.Machine
end

section
/-! PROOFS. The tree builder's commands (42_tree_builder.md R131 to R135, R138): what each answers, check by check, TREE_BUILD
as the steps it stands for, and the alphabet of one symbol. -/

namespace Sys2Proof.Machine

variable {s : State} {nodes : List Node} {h : List Word}

/-! ### What the commands answer -/

/-- TREE_INIT passes its two checks, or reports the first that fails (R131). -/
theorem exec_treeInit (s : State) : exec .treeInit s = .next (
    if s.phase ≠ .loading then aborted .sequence s
    else if s.k = 0 then aborted .emptyAlphabet s
    else { completed s with nodes := leafNodes s.ft, heap := enqueueLeaves (leafNodes s.ft) s.k, phase := .queued }) := by
  show execTreeInit s = _
  simp only [execTreeInit, ne_eq, reduceCtorEq, not_false_eq_true, raise_eq, finish_eq, apply_ite Host.Outcome.next]
  rfl

/-- TREE_INIT of a non-empty table (R131). -/
theorem exec_treeInit_of_loading (hp : s.phase = .loading) (hk : 1 ≤ s.k) : exec .treeInit s = .next
    { completed s with nodes := leafNodes s.ft, heap := enqueueLeaves (leafNodes s.ft) s.k, phase := .queued } := by
  rw [exec_treeInit, if_neg (not_not.2 hp), if_neg (by omega)]

/-- TREE_STEP with two nodes queued answers what the merge leaves (R132). -/
theorem exec_treeStep_of_mergeTwo (hp : s.phase = .queued) (h2 : 2 ≤ s.pqCount)
    (hm : mergeTwo s.nodes s.heap = some (nodes, h)) :
    exec .treeStep s = .next { completed s with nodes := nodes, heap := h } := by
  show execTreeStep s = _
  rw [execTreeStep, if_neg (not_not.2 hp), if_neg (by omega), hm]
  rfl

/-- TREE_STEP with fewer than two nodes queued (R132, R209). -/
theorem exec_treeStep_of_lt (hp : s.phase = .queued) (h2 : s.pqCount < 2) :
    exec .treeStep s = .next (aborted .emptyQueue s) := by
  show execTreeStep s = _
  rw [execTreeStep, if_neg (not_not.2 hp), if_pos h2]
  exact raise_eq _ s (by decide)

/-- TREE_FINISH with one node queued (R133). -/
theorem exec_treeFinish_of_singleton {r : Word} (hp : s.phase = .queued) (hh : s.heap = [r]) :
    exec .treeFinish s = .next { completed s with root := r, heap := [], phase := .tree } := by
  show execTreeFinish s = _
  rw [execTreeFinish, if_neg (not_not.2 hp), if_neg (by simp [State.pqCount, hh]), hh, heapDequeue_singleton]
  rfl

/-- TREE_BUILD answers the nodes of its merge loop, with the one node left in the queue as root (R134). -/
theorem exec_treeBuild_of_mergeLoop {r : Word} (hp : s.phase = .loading) (hk : 1 ≤ s.k)
    (hm : mergeLoop s.k (leafNodes s.ft) (enqueueLeaves (leafNodes s.ft) s.k) = some (nodes, [r])) :
    exec .treeBuild s = .next { completed s with nodes := nodes, root := r, heap := [], phase := .tree } := by
  show execTreeBuild s = _
  rw [execTreeBuild, if_neg (not_not.2 hp), if_neg (by omega), hm]
  simp only [heapDequeue_singleton]
  rfl

/-- CODES_BUILD of a built tree (R152). -/
theorem exec_codesBuild_of_tree (hp : s.phase = .tree) :
    exec .codesBuild s = .next { completed s with code := codesOf s, phase := .coded } := by
  show execCodesBuild s = _
  rw [execCodesBuild, if_neg (not_not.2 hp)]
  rfl

/-- A command that answers a next state hands it to the rest of the list. -/
theorem runCommands_cons {t : State} {i : Instr} {is : List Instr} (he : exec i s = .next t) :
    runCommands (i :: is) s = runCommands is t := by
  rw [runCommands, he]

/-- TREE_BUILD and CODES_BUILD lead from phase LOADING to phase CODED (R134, R152). -/
theorem runCommands_build {r : Word} {is : List Instr} (hp : s.phase = .loading) (hk : 1 ≤ s.k)
    (hm : mergeLoop s.k (leafNodes s.ft) (enqueueLeaves (leafNodes s.ft) s.k) = some (nodes, [r])) :
    runCommands (.treeBuild :: .codesBuild :: is) s = runCommands is { completed s with
      nodes := nodes, root := r, heap := [], code := walk nodes nodes.length r [] (blankCodes s.k), phase := .coded } := by
  rw [runCommands_cons (exec_treeBuild_of_mergeLoop hp hk hm)]
  exact runCommands_cons (exec_codesBuild_of_tree rfl)

/-- Settles O27: each command's first failing check decides. -/
theorem builderChecks : Obligations.BuilderChecks := by
  intro s
  refine ⟨fun hp => ⟨?initPhase, ?buildPhase⟩, fun hp hk => ⟨?initEmpty, ?buildEmpty⟩,
    fun hp => ⟨?stepPhase, ?finishPhase⟩, exec_treeStep_of_lt, fun hp h0 => ?finishEmpty, fun hp h2 => ?finishEarly,
    fun hp => ?codesPhase⟩
  case initPhase => rw [exec_treeInit, if_pos hp]
  case initEmpty => rw [exec_treeInit, if_neg (not_not.2 hp), if_pos hk]
  case buildEmpty => exact (if_neg (not_not.2 hp)).trans ((if_pos hk).trans (raise_eq _ s (by decide)))
  case finishEmpty =>
    have hempty : s.heap = [] := List.length_eq_zero_iff.1 h0
    show execTreeFinish s = _
    rw [execTreeFinish, if_neg (not_not.2 hp), if_neg (by omega), hempty, heapDequeue_none.2 rfl]
    exact raise_eq _ s (by decide)
  case finishEarly => exact (if_neg (not_not.2 hp)).trans ((if_pos h2).trans (raise_eq _ s (by decide)))
  case buildPhase | stepPhase | finishPhase | codesPhase => exact (if_pos hp).trans (raise_eq _ s (by decide))

/-! ### TREE_INIT -/

/-- Settles O23: the queue after the leaves are enqueued holds each of them once, in heap order. -/
theorem treeInitQueuesTheLeaves : Obligations.TreeInitQueuesTheLeaves := fun s hp hk hle =>
  ⟨exec_treeInit_of_loading hp hk, enqueueLeaves_spec (leafNodes s.ft) (Nat.le_trans hle (by decide))⟩

/-- An item no lighter than every queued one stays where Enqueue puts it: last (R101, R105). -/
theorem heapEnqueue_of_heaviest {key : Word → Word} {n : Word} (hn : ∀ m ∈ h, (key m).toNat ≤ (key n).toNat) :
    heapEnqueue key h n = h ++ [n] := by
  rw [heapEnqueue, siftUp_round (by omega), if_neg]
  rintro ⟨hpos, hlighter⟩
  have hparent := heapParent_lt hpos
  rw [heapAt_append _ hparent, show heapAt (h ++ [n]) h.length = n by simp [heapAt]] at hlighter
  exact absurd (hn _ (heapAt_mem hparent)) (Nat.not_le.2 hlighter)

/-- Leaves of equal weight queue up in slot order (R131, R105). -/
theorem enqueueLeaves_of_equal {f : Word} {k : Nat} (hf : ∀ i < k, weightOf nodes (BitVec.ofNat 32 i) = f) :
    enqueueLeaves nodes k = (List.range k).map (BitVec.ofNat 32) := by
  induction k with
  | zero => rfl
  | succ k ih =>
    have hqueue : enqueueLeaves nodes k = (List.range k).map (BitVec.ofNat 32) := ih fun i hi => hf i (by omega)
    have hround : enqueueLeaves nodes (k + 1) =
        heapEnqueue (weightOf nodes) (enqueueLeaves nodes k) (BitVec.ofNat 32 k) := by
      simp only [enqueueLeaves, List.range_succ, List.foldl_append, List.foldl_cons, List.foldl_nil]
    rw [hround, hqueue, heapEnqueue_of_heaviest, List.range_succ, List.map_append, List.map_singleton]
    intro m hm
    obtain ⟨i, hi, rfl⟩ := List.mem_map.1 hm
    rw [hf i (by have := List.mem_range.1 hi; omega), hf k (by omega)]

/-- The weight of leaf i is the frequency of slot i (R130, R131). -/
theorem weightOf_leafNodes {ft : List FtEntry} {n : Word} (hn : n.toNat < ft.length) :
    weightOf (leafNodes ft) n = ft[n.toNat].freq := by
  rw [weightOf_of_lt (by simpa using hn)]
  simp [leafNodes, nodeWeight]

/-- Settles O24: every leaf weighs f. -/
theorem treeInitOfEqualWeightsKeepsSlotOrder : Obligations.TreeInitOfEqualWeightsKeepsSlotOrder := by
  intro s f hp hk hle hf
  have hweight : ∀ i < s.k, weightOf (leafNodes s.ft) (BitVec.ofNat 32 i) = f := by
    intro i hi
    have hindex : (BitVec.ofNat 32 i).toNat < s.ft.length := by
      rw [BitVec.toNat_ofNat, Nat.mod_eq_of_lt (by omega)]; exact hi
    rw [weightOf_leafNodes hindex]
    exact hf _ (List.getElem_mem _)
  rw [exec_treeInit_of_loading hp hk, enqueueLeaves_of_equal hweight]
  rfl

/-! ### TREE_STEP and TREE_FINISH -/

/-- Of a queue in heap order the first Dequeue takes a least node, and the second a least one of the rest (R102). -/
theorem QueueOk.dequeue_least {ft : List FtEntry} {a b : Word} {h1 h2 : List Word} (hq : QueueOk ft nodes h)
    (ha : heapDequeue (weightOf nodes) h = some (a, h1)) (hb : heapDequeue (weightOf nodes) h1 = some (b, h2)) :
    (weightOf nodes a).toNat ≤ (weightOf nodes b).toNat ∧
      ∀ c ∈ h2, (weightOf nodes b).toNat ≤ (weightOf nodes c).toNat := by
  obtain ⟨-, -, hperm⟩ := heapDequeue_some hb
  exact ⟨heapDequeue_min hq.ordered ha b (hperm.mem_iff.2 List.mem_cons_self),
    heapDequeue_min (heapDequeue_heap hq.ordered ha) hb⟩

/-- Settles O25: the two Dequeues of a merge. -/
theorem treeStepMergesTheTwoLightest : Obligations.TreeStepMergesTheTwoLightest := by
  intro s hs hp h2
  have hq := hs.queueOk hp
  obtain ⟨a, b, h1, rest, ha, hb, hperm, hfits, hmerge, -⟩ := mergeTwo_spec hq h2
  obtain ⟨hab, hrest⟩ := hq.dequeue_least ha hb
  exact ⟨a, b, h1, rest, ha, hb, hperm, hab, hrest, BitVec.toNat_add_of_lt hfits, heapEnqueue_perm _ _ _,
    exec_treeStep_of_mergeTwo hp h2 hmerge⟩

/-- Settles O26: the node left in the queue of a well-formed state is the last one created. -/
theorem treeFinishSetsTheRoot : Obligations.TreeFinishSetsTheRoot := fun _ _ hp hh =>
  ⟨exec_treeFinish_of_singleton hp hh, fun hs => (hh ▸ hs.queueOk hp).last_root⟩

/-! ### TREE_BUILD -/

/-- TREE_STEPs on a completed state of phase QUEUED do what the merge loop does, one round each (R132, R134). -/
theorem runCommands_treeSteps {r : Word} {is : List Instr} : ∀ (n fuel : Nat) (s : State), s.phase = .queued →
    s.pqCount = n + 1 → mergeLoop fuel s.nodes s.heap = some (nodes, [r]) →
    runCommands (List.replicate n .treeStep ++ is) (completed s) =
      runCommands is { completed s with nodes := nodes, heap := [r] }
  | 0, fuel, s, hp, hn, hm => by
    have hstop : mergeLoop fuel s.nodes s.heap = some (s.nodes, s.heap) := by
      cases fuel with
      | zero => rfl
      | succ fuel => exact if_neg (by unfold State.pqCount at hn; omega)
    obtain ⟨rfl, hh⟩ : s.nodes = nodes ∧ s.heap = [r] := by simpa [hstop] using hm
    rw [← hh]
    rfl
  | n + 1, 0, s, hp, hn, hm => by
    obtain ⟨-, hh⟩ : s.nodes = nodes ∧ s.heap = [r] := by simpa [mergeLoop] using hm
    simp [State.pqCount, hh] at hn
  | n + 1, fuel + 1, s, hp, hn, hm => by
    have h2 : 2 ≤ s.heap.length := by unfold State.pqCount at hn; omega
    obtain ⟨nodes', h', hmerge, hlen⟩ := mergeTwo_length (nodes := s.nodes) h2
    have hrest : mergeLoop fuel nodes' h' = some (nodes, [r]) := by
      rw [mergeLoop, if_pos (by omega), hmerge] at hm
      exact hm
    have hstep : exec .treeStep (completed s) = .next (completed { s with nodes := nodes', heap := h' }) :=
      exec_treeStep_of_mergeTwo (s := completed s) hp h2 hmerge
    rw [List.replicate_succ, List.cons_append, runCommands_cons hstep]
    exact runCommands_treeSteps n fuel { s with nodes := nodes', heap := h' } hp
      (by unfold State.pqCount at hn ⊢; simp only; omega) hrest

/-- Settles O28: the merge loop is k - 1 TREE_STEPs, and its queue starts with k leaves and ends with one node. -/
theorem treeBuildIsItsSteps : Obligations.TreeBuildIsItsSteps := by
  intro s hp hk
  obtain ⟨nodes, r, hm⟩ := mergeLoop_length s.k (nodes := leafNodes s.ft)
    (h := enqueueLeaves (leafNodes s.ft) s.k) (by simpa using hk) (by simp)
  have hsteps := runCommands_treeSteps (is := [.treeFinish]) (s.k - 1) s.k
    { s with nodes := leafNodes s.ft, heap := enqueueLeaves (leafNodes s.ft) s.k, phase := .queued } rfl
    (by simp [State.pqCount]; omega) hm
  rw [exec_treeBuild_of_mergeLoop hp hk hm, runCommands_cons (exec_treeInit_of_loading hp hk)]
  exact (hsteps.trans (runCommands_cons (exec_treeFinish_of_singleton rfl rfl))).symm

/-- The arena of a queue the merges run on fits the node indices (R8, R137). -/
theorem QueueOk.nodes_lt {ft : List FtEntry} (hq : QueueOk ft nodes h) : nodes.length < 2 ^ 32 := by
  have hcounts := hq.counts
  have hsmall := hq.small
  omega

/-- The merge loop on the leaves of a non-empty well-formed table ends with one node queued (R134). -/
theorem State.Inv.mergeLoop_leaves (hs : s.Inv) (hk : 1 ≤ s.k) :
    ∃ nodes r, mergeLoop s.k (leafNodes s.ft) (enqueueLeaves (leafNodes s.ft) s.k) = some (nodes, [r]) ∧
      QueueOk s.ft nodes [r] := by
  have hleaves : QueueOk s.ft (leafNodes s.ft) (enqueueLeaves (leafNodes s.ft) s.k) :=
    queueOk_leafNodes hs.table_le hs.total_lt
  exact mergeLoop_spec s.k hleaves (by simpa using hk) (by simp)

/-- Settles O29: the last node queued is the root of a complete tree, and weighs what the leaves do. -/
theorem treeBuildBuildsTheTree : Obligations.TreeBuildBuildsTheTree := by
  intro s hs hp hk
  obtain ⟨nodes, r, hm, hq⟩ := hs.mergeLoop_leaves hk
  have hcounts : nodes.length + 1 = 2 * s.k := hq.counts
  have hweight : (weightOf nodes r).toNat = s.totalW.toNat := by
    simpa [hs.total] using hq.forest.weight hq.nodes_lt.le
  exact ⟨nodes, r, hq.last_root, by omega, hq.forest, BitVec.eq_of_toNat_eq hweight, exec_treeBuild_of_mergeLoop hp hk hm⟩

/-! ### NODE_READ -/

/-- The second result word of a leaf: the symbol above the tag 1 (R135). -/
theorem leafTag_toNat (sym : Symbol) : ((zextSymbol sym <<< 16) ||| 1#32).toNat = sym.toNat * 2 ^ 16 + 1 := by
  have hsym := sym.isLt
  have hshift : (zextSymbol sym <<< 16).toNat = sym.toNat <<< 16 := by
    rw [BitVec.toNat_shiftLeft, zextSymbol_toNat, Nat.mod_eq_of_lt (by rw [Nat.shiftLeft_eq]; omega)]
  rw [BitVec.toNat_or, hshift, ← Nat.shiftLeft_add_eq_or_of_lt (by decide), Nat.shiftLeft_eq]
  rfl

/-- Settles O30: by the kind of the node. -/
theorem nodeReadReturnsTheNode : Obligations.NodeReadReturnsTheNode := by
  refine fun s => ⟨fun sym w hn => ⟨_, leafTag_toNat sym, ?_⟩, fun w l r hn => ?_⟩
  all_goals
    show execNodeRead s = _
    rw [execNodeRead, argIndex, hn]
    rfl

/-! ### One symbol -/

/-- ENCODE of the symbol of slot i, where its code fits the output (R170). -/
theorem exec_encode_of_fits {sym : Symbol} {i : Nat} (hp : s.phase = .coded) (hi : lookup s.ft sym = some i)
    (hroom : s.outLen + (codeAt s i).length ≤ s.params.outCap) :
    exec (.encode sym) s = .next { completed s with out := s.out ++ codeAt s i } := by
  show execEncode sym s = _
  rw [execEncode, if_neg (not_not.2 hp), hi]
  exact if_neg (Nat.not_lt.2 hroom)

/-- The walk from a root that is leaf 0 (R156). -/
theorem walk_of_leaf (sym : Symbol) (w : Word) (c : BitString) : walk [.leaf sym w] 1 0#32 [] [c] = [[]] := rfl

/-- Settles O40: one leaf is queued, so nothing is merged, and the walk ends where it starts. -/
theorem oneSymbolAlphabet : Obligations.OneSymbolAlphabet := by
  intro s e hp hft hout
  have hk : s.k = 1 := by simp [State.k, hft]
  have hleaf : leafNodes s.ft = [.leaf e.sym e.freq] := by rw [hft]; rfl
  have hqueue : enqueueLeaves (leafNodes s.ft) s.k = [0#32] := by
    rw [hk]; exact enqueueLeaves_of_equal (f := weightOf (leafNodes s.ft) 0#32) (by simp)
  have hone : (enqueueLeaves (leafNodes s.ft) s.k).length < 2 := by rw [hqueue]; decide
  refine ⟨⟨_, exec_treeInit_of_loading hp hk.ge, hqueue, exec_treeStep_of_lt rfl hone⟩, ?_⟩
  have hmerge : mergeLoop s.k (leafNodes s.ft) (enqueueLeaves (leafNodes s.ft) s.k) =
      some ([.leaf e.sym e.freq], [0#32]) := by
    rw [hqueue, hk, hleaf]; rfl
  have hfind : lookup s.ft e.sym = some 0 := by simp [lookup, hft]
  have hcode : walk [.leaf e.sym e.freq] [Node.leaf e.sym e.freq].length 0#32 [] (blankCodes s.k) = [[]] := by
    rw [hk]; exact walk_of_leaf _ _ _
  rw [runCommands_build hp hk.ge hmerge, hcode]
  exact ⟨_, runCommands_cons (exec_encode_of_fits (i := 0) rfl hfind hout), rfl, rfl, rfl, rfl, List.append_nil _,
    rfl, rfl⟩

end Sys2Proof.Machine
end

section
/-! PROOFS. The completed tree (42_tree_builder.md R136): the root's weight, the one path to every node, and the cost of the
codes that are these paths. -/

namespace Sys2Proof.Machine

variable {ft : List FtEntry} {nodes : List Node} {root : Word}

/-- Settles O53: the root is the tree's only one, and it weighs what the leaves do. -/
theorem rootWeighsTheTotal : Obligations.RootWeighsTheTotal := by
  intro s hs hp
  have hd := hs.treeDone hp
  refine BitVec.eq_of_toNat_eq ?_
  simpa [hs.total] using hd.forest.weight (hs.nodes_le hd)

/-- In a tree, paths from the root to the same node are one path (R136). -/
theorem Forest.path_eq (hf : Forest ft nodes [root]) {p q : BitString} {n : Nat}
    (hp : (descend nodes root p).map BitVec.toNat = some n) (hq : (descend nodes root q).map BitVec.toNat = some n) :
    p = q := by
  obtain ⟨m, hpm, rfl⟩ := Option.map_eq_some_iff.1 hp
  obtain ⟨m', hqm, hm⟩ := Option.map_eq_some_iff.1 hq
  obtain rfl : m' = m := BitVec.eq_of_toNat_eq hm
  exact hf.path_unique _ p q m' rfl hpm hqm

/-- Settles O54: a path by the chain of parents, and no other. -/
theorem everyNodeReachedOnce : Obligations.EveryNodeReachedOnce := by
  intro s hs hp n hn
  have hd := hs.treeDone hp
  obtain ⟨p, hpath⟩ := hd.forest.reach (hs.nodes_le hd) _ n hn (Nat.le_refl _)
  exact ⟨p, hpath, fun q hq => hd.forest.path_eq hq hpath⟩

/-! ### The cost of the paths -/

/-- The weight a node has as an internal node. -/
def innerWeight : Node → Nat
  | .leaf _ _ => 0
  | .internal w _ _ => w.toNat

/-- What the merges of an arena weigh together: the sum of its internal nodes' weights. -/
def mergeCost (nodes : List Node) : Nat := (nodes.map innerWeight).sum

theorem mergeCost_leafNodes (ft : List FtEntry) : mergeCost (leafNodes ft) = 0 := by
  simp [mergeCost, leafNodes, innerWeight, Function.comp_def]

theorem mergeCost_append (nodes : List Node) (w l r : Word) :
    mergeCost (nodes ++ [.internal w l r]) = mergeCost nodes + w.toNat := by
  simp [mergeCost, innerWeight]

/-- Depths count the steps from the root. -/
structure IsDepth (nodes : List Node) (root : Word) (depth : Nat → Nat) : Prop where
  root  : depth root.toNat = 0
  child : ∀ i w l r, nodes[i]? = some (.internal w l r) → depth l.toNat = depth i + 1 ∧ depth r.toNat = depth i + 1

/-- The lengths of the paths are depths: a child's path is its parent's and one step (R151). -/
theorem Forest.isDepth (hf : Forest ft nodes [root]) {path : Nat → BitString}
    (hpath : ∀ n < nodes.length, (descend nodes root (path n)).map BitVec.toNat = some n) :
    IsDepth nodes root (fun n => (path n).length) where
  root := by
    rw [hf.path_eq (hpath _ (hf.root_lt List.mem_cons_self)) (q := []) (by simp)]
    rfl
  child i w l r hi := by
    have hil : i < nodes.length := (List.getElem?_eq_some_iff.1 hi).1
    obtain ⟨-, hl, hr, -⟩ := hf.children hi
    obtain ⟨m, hm, rfl⟩ := Option.map_eq_some_iff.1 (hpath i hil)
    have hstep : ∀ b, (if b then r else l).toNat < nodes.length →
        path (if b then r else l).toNat = path m.toNat ++ [b] := fun b hb =>
      hf.path_eq (hpath _ hb) (by simp [descend_append, hm, descend_internal hi])
    have hleft := hstep false (by simp; omega)
    have hright := hstep true (by simp; omega)
    simp only [Bool.false_eq_true, if_false, if_true] at hleft hright
    simp [hleft, hright]

/-- The weight a node has as a leaf. -/
def leafWeight : Node → Nat
  | .leaf _ w => w.toNat
  | .internal _ _ _ => 0

/-- What the leaves of an arena cost together when node i is at depth i. -/
def leafCost (nodes : List Node) (depth : Nat → Nat) : Nat :=
  (nodes.zipIdx.map (fun x => leafWeight x.1 * depth x.2)).sum

theorem weightAt_of_getElem? {i : Nat} {nd : Node} (hlen : nodes.length ≤ 2 ^ 32) (hi : nodes[i]? = some nd) :
    weightAt nodes i = (nodeWeight nd).toNat := by
  obtain ⟨hil, rfl⟩ := List.getElem?_eq_some_iff.1 hi
  have hindex : (BitVec.ofNat 32 i).toNat = i := by rw [BitVec.toNat_ofNat, Nat.mod_eq_of_lt (by omega)]
  simp [weightAt, weightOf, hindex, hil]

/-- The children of a node weigh what it does, one level deeper (R132). -/
theorem Forest.sum_children_depth {depth : Nat → Nat} (hf : Forest ft nodes [root]) (hlen : nodes.length ≤ 2 ^ 32)
    (hdepth : IsDepth nodes root depth) {i : Nat} {nd : Node} (hi : nodes[i]? = some nd) :
    ((childIndices nd).map (fun c => weightAt nodes c * depth c)).sum + leafWeight nd * depth i =
      weightAt nodes i * depth i + innerWeight nd := by
  rw [weightAt_of_getElem? hlen hi]
  cases nd with
  | leaf sym w => simp [childIndices, leafWeight, innerWeight, nodeWeight]
  | internal w l r =>
    obtain ⟨hl, hr⟩ := hdepth.child i w l r hi
    obtain ⟨-, -, -, hw⟩ := hf.children hi
    simp only [childIndices, leafWeight, innerWeight, nodeWeight, List.map_cons, List.map_nil, List.sum_cons,
      List.sum_nil, hl, hr, hw, ← weightOf_toNat_eq]
    ring

/-- A sum over the nodes, taken with their indices. -/
theorem sum_zipIdx_fst (nodes : List Node) (g : Node → Nat) :
    (nodes.zipIdx.map (fun x => g x.1)).sum = (nodes.map g).sum := by
  conv_rhs => rw [← List.zipIdx_map_fst 0 nodes, List.map_map]
  rfl

/-- A sum over the indices, taken with their nodes. -/
theorem sum_zipIdx_snd (nodes : List Node) (g : Nat → Nat) :
    (nodes.zipIdx.map (fun x => g x.2)).sum = ((List.range nodes.length).map g).sum := by
  rw [List.range_eq_range', ← List.zipIdx_map_snd 0 nodes, List.map_map]
  rfl

/-- The leaves of a tree cost what its merges weigh: every node but the root is one node's child (R136). -/
theorem Forest.leafCost_eq {depth : Nat → Nat} (hf : Forest ft nodes [root]) (hlen : nodes.length ≤ 2 ^ 32)
    (hdepth : IsDepth nodes root depth) : leafCost nodes depth = mergeCost nodes := by
  have hnode : (nodes.zipIdx.map (fun x =>
      ((childIndices x.1).map (fun c => weightAt nodes c * depth c)).sum + leafWeight x.1 * depth x.2)).sum =
      (nodes.zipIdx.map (fun x => weightAt nodes x.2 * depth x.2 + innerWeight x.1)).sum :=
    congrArg List.sum (List.map_congr_left fun x hx =>
      hf.sum_children_depth hlen hdepth (List.mem_zipIdx_iff_getElem?.1 hx))
  have hchildren : (nodes.map (fun nd => ((childIndices nd).map (fun c => weightAt nodes c * depth c)).sum)).sum =
      ((List.range nodes.length).map (fun i => weightAt nodes i * depth i)).sum := by
    have howned := (hf.owned.map (fun i => weightAt nodes i * depth i)).sum_eq
    simpa [hdepth.root, List.map_flatMap, List.flatMap, List.sum_flatten, Function.comp_def] using howned
  rw [List.sum_map_add, List.sum_map_add,
    sum_zipIdx_fst nodes (fun nd => ((childIndices nd).map (fun c => weightAt nodes c * depth c)).sum), hchildren,
    sum_zipIdx_snd nodes (fun i => weightAt nodes i * depth i), sum_zipIdx_fst nodes innerWeight] at hnode
  exact Nat.add_left_cancel hnode

/-- The leaves' cost is that of a table of codes with their depths as lengths (R136). -/
theorem Forest.codeCost_eq {depth : Nat → Nat} {codes : List BitString} (hf : Forest ft nodes [root])
    (hcodes : codes.length = ft.length) (hdepth : ∀ i p, codes[i]? = some p → depth i = p.length) :
    codeCost ft codes = leafCost nodes depth := by
  have hsplit : nodes = leafNodes ft ++ nodes.drop ft.length := by rw [← hf.leaves, List.take_append_drop]
  have hinner : ((nodes.drop ft.length).zipIdx ft.length).map (fun x => leafWeight x.1 * depth x.2) =
      ((nodes.drop ft.length).zipIdx ft.length).map (fun _ => 0) := by
    refine List.map_congr_left fun ⟨nd, i⟩ hx => ?_
    obtain ⟨hle, hget⟩ := List.mem_zipIdx_iff_le_and_getElem?_sub.1 hx
    rw [List.getElem?_drop, Nat.add_sub_cancel' hle] at hget
    obtain ⟨w, l, r, hi, -⟩ := hf.internal hle (List.getElem?_eq_some_iff.1 hget).1
    obtain rfl : Node.internal w l r = nd := Option.some.inj (hi.symm.trans hget)
    exact Nat.zero_mul _
  have hleaves : (leafNodes ft).zipIdx.map (fun x => leafWeight x.1 * depth x.2) =
      (ft.zip codes).map (fun x => x.1.freq.toNat * x.2.length) := by
    refine List.ext_getElem (by simp [hcodes]) fun i h1 h2 => ?_
    have hi : i < codes.length := by simp at h2; omega
    simp [leafNodes, leafWeight, hdepth i _ (List.getElem?_eq_getElem hi)]
  rw [leafCost, hsplit, List.zipIdx_append, List.map_append, List.sum_append, hleaves, leafNodes_length, Nat.zero_add,
    hinner, codeCost]
  simp

/-- The paths from the root to the leaves cost, as codes, what the merges weigh (R136, R150). -/
theorem Forest.codeCost_paths {codes : List BitString} (hf : Forest ft nodes [root]) (hlen : nodes.length ≤ 2 ^ 32)
    (hcodes : codes.length = ft.length)
    (hpaths : ∀ i p, codes[i]? = some p → (descend nodes root p).map BitVec.toNat = some i) :
    codeCost ft codes = mergeCost nodes := by
  have hreach : ∀ n, n < nodes.length → ∃ p, (descend nodes root p).map BitVec.toNat = some n := fun n hn =>
    hf.reach hlen _ n hn (Nat.le_refl _)
  choose! path hpath using hreach
  rw [← hf.leafCost_eq hlen (hf.isDepth hpath)]
  refine hf.codeCost_eq hcodes fun i p hi => ?_
  have hik : i < ft.length := hcodes ▸ (List.getElem?_eq_some_iff.1 hi).1
  rw [hf.path_eq (hpath i (Nat.lt_of_lt_of_le hik hf.leaf_le)) (hpaths i p hi)]

/-- The codes the walk writes cost what the merges weigh (R136, R151). -/
theorem Forest.codeCost_walk {code : List BitString} (hf : Forest ft nodes [root]) (hlen : nodes.length ≤ 2 ^ 32)
    (hcode : code.length = ft.length) : codeCost ft (walk nodes nodes.length root [] code) = mergeCost nodes := by
  refine hf.codeCost_paths hlen (by rw [walk_length, hcode]) fun i p hi => ?_
  have hik : i < code.length := by simpa using (List.getElem?_eq_some_iff.1 hi).1
  obtain ⟨q, hq, hpath⟩ := walk_codes hf hlen code hcode (hcode ▸ hik)
  obtain rfl : p = q := Option.some.inj (hi.symm.trans hq)
  exact hpath

end Sys2Proof.Machine
end

section
/-! PROOFS. The optimality of the codes built (42_tree_builder.md R136). The lengths of every table in which no code begins
another satisfy Kraft's inequality, and a merge of the two lightest nodes weighs no more than it takes off the cost of any
such lengths. -/

namespace Sys2Proof.Machine

/-! ### Weights with lengths -/

/-- What weights of given lengths cost: a weight with its length is a pair. -/
def lengthCost (P : Multiset (ℕ × ℕ)) : ℕ := (P.map (fun p => p.1 * p.2)).sum

@[simp] theorem lengthCost_cons (p : ℕ × ℕ) (P : Multiset (ℕ × ℕ)) :
    lengthCost (p ::ₘ P) = p.1 * p.2 + lengthCost P := by
  simp [lengthCost]

/-- Kraft's sum of lengths of at most L, multiplied by 2^L. -/
def kraftSum (L : ℕ) (lengths : Multiset ℕ) : ℕ := (lengths.map (fun l => 2 ^ (L - l))).sum

@[simp] theorem kraftSum_cons (L l : ℕ) (lengths : Multiset ℕ) :
    kraftSum L (l ::ₘ lengths) = 2 ^ (L - l) + kraftSum L lengths := by
  simp [kraftSum]

/-- Lengths of at most y have a Kraft sum that is a multiple of y's summand. -/
theorem dvd_kraftSum {L y : ℕ} {lengths : Multiset ℕ} (hmax : ∀ l ∈ lengths, l ≤ y) :
    2 ^ (L - y) ∣ kraftSum L lengths := by
  refine Multiset.dvd_sum fun n hn => ?_
  obtain ⟨l, hl, rfl⟩ := Multiset.mem_map.1 hn
  exact pow_dvd_pow 2 (Nat.sub_le_sub_left (hmax l hl) L)

/-- Kraft's inequality for lengths of at most L. -/
def KraftAt (L : ℕ) (lengths : Multiset ℕ) : Prop := (∀ l ∈ lengths, l ≤ L) ∧ kraftSum L lengths ≤ 2 ^ L

/-- A least weight may have the greatest length: swapping its length with a greater one costs no more. -/
theorem exists_longest {a : ℕ} (l : ℕ) (P : Multiset (ℕ × ℕ)) (ha : ∀ p ∈ P, a ≤ p.1) :
    ∃ (x : ℕ) (Q : Multiset (ℕ × ℕ)), Q.map Prod.fst = P.map Prod.fst ∧
      x ::ₘ Q.map Prod.snd = l ::ₘ P.map Prod.snd ∧ (∀ q ∈ Q, q.2 ≤ x) ∧
      a * x + lengthCost Q ≤ a * l + lengthCost P := by
  induction P using Multiset.induction with
  | empty => exact ⟨l, 0, rfl, rfl, by simp, Nat.le_refl _⟩
  | cons p P ih =>
    obtain ⟨w, m⟩ := p
    obtain ⟨x, Q, hfst, hsnd, hmax, hcost⟩ := ih fun p hp => ha p (Multiset.mem_cons_of_mem hp)
    have haw : a ≤ w := ha _ (Multiset.mem_cons_self _ _)
    rcases Nat.le_total m x with hmx | hxm
    · refine ⟨x, (w, m) ::ₘ Q, by simp [hfst], ?_, ?_, ?_⟩
      · simp only [Multiset.map_cons]
        rw [Multiset.cons_swap, hsnd, Multiset.cons_swap]
      · simpa [hmx] using hmax
      · simp only [lengthCost_cons]
        omega
    · refine ⟨m, (w, x) ::ₘ Q, by simp [hfst], ?_, ?_, ?_⟩
      · simp only [Multiset.map_cons]
        rw [hsnd, Multiset.cons_swap]
      · simpa [hxm] using fun c d hq => (hmax (c, d) hq).trans hxm
      · have hswap : a * m + w * x ≤ a * x + w * m := mul_add_mul_le_mul_add_mul haw hxm
        simp only [lengthCost_cons]
        omega

/-- The same for the first of a multiset's weights, where it is a least one. -/
theorem exists_longest_of_map_eq {a : ℕ} {M : Multiset ℕ} {P : Multiset (ℕ × ℕ)} (hfst : P.map Prod.fst = a ::ₘ M)
    (ha : ∀ c ∈ M, a ≤ c) :
    ∃ (x : ℕ) (Q : Multiset (ℕ × ℕ)), Q.map Prod.fst = M ∧ P.map Prod.snd = x ::ₘ Q.map Prod.snd ∧
      (∀ q ∈ Q, q.2 ≤ x) ∧ a * x + lengthCost Q ≤ lengthCost P := by
  obtain ⟨⟨a, l⟩, hmem, rfl, rfl⟩ := (Multiset.map_eq_cons _ _ _ _).2 hfst
  obtain ⟨x, Q, hQfst, hQsnd, hmax, hcost⟩ := exists_longest l (P.erase (a, l)) fun p hp =>
    ha _ (Multiset.mem_map_of_mem _ hp)
  refine ⟨x, Q, hQfst, ?_, hmax, ?_⟩
  · rw [hQsnd, ← Multiset.cons_erase hmem, Multiset.map_cons, Multiset.erase_cons_head]
  · rw [← Multiset.cons_erase hmem, lengthCost_cons]
    exact hcost

/-- Of the two greatest lengths the less, taken one shorter, is enough for a single weight in the place of the two: all
summands of Kraft's sum but the least are multiples of the second least, so there is room for that one twice. -/
theorem KraftAt.merge {L x y : ℕ} {lengths : Multiset ℕ} (hk : KraftAt L (x ::ₘ y ::ₘ lengths))
    (hmax : ∀ l ∈ lengths, l ≤ y) : 1 ≤ y ∧ KraftAt L ((y - 1) ::ₘ lengths) := by
  obtain ⟨hle, hsum⟩ := hk
  rw [kraftSum_cons] at hsum
  have hyL : y ≤ L := hle y (by simp)
  have hrest : kraftSum L (y ::ₘ lengths) < 2 ^ L := by
    have hx : 0 < 2 ^ (L - x) := Nat.two_pow_pos _
    omega
  have hroom : kraftSum L (y ::ₘ lengths) + 2 ^ (L - y) ≤ 2 ^ L :=
    Nat.le_of_lt_add_of_dvd (Nat.add_lt_add_right hrest _)
      (Nat.dvd_add (dvd_kraftSum (by simpa using hmax)) (Nat.dvd_refl _)) (pow_dvd_pow 2 (Nat.sub_le L y))
  rw [kraftSum_cons] at hroom
  have hy : 1 ≤ y := by
    by_contra h0
    rw [show L - y = L by omega] at hroom
    have hL : 0 < 2 ^ L := Nat.two_pow_pos L
    omega
  have hdouble : 2 ^ (L - (y - 1)) = 2 ^ (L - y) + 2 ^ (L - y) := by
    rw [show L - (y - 1) = L - y + 1 by omega, pow_succ, Nat.mul_two]
  refine ⟨hy, Multiset.forall_mem_cons.2 ⟨by omega, fun l hl => hle l (by simp [hl])⟩, ?_⟩
  rw [kraftSum_cons, hdouble]
  omega

/-- Merging two least weights takes their sum off the cost, with lengths that still satisfy Kraft's inequality. -/
theorem exists_merged {L a b : ℕ} {M : Multiset ℕ} {P : Multiset (ℕ × ℕ)} (hfst : P.map Prod.fst = a ::ₘ b ::ₘ M)
    (hab : a ≤ b) (hb : ∀ c ∈ M, b ≤ c) (hk : KraftAt L (P.map Prod.snd)) :
    ∃ P' : Multiset (ℕ × ℕ), P'.map Prod.fst = (a + b) ::ₘ M ∧ KraftAt L (P'.map Prod.snd) ∧
      lengthCost P' + (a + b) ≤ lengthCost P := by
  obtain ⟨x, Q, hQfst, hPsnd, hx, hPcost⟩ := exists_longest_of_map_eq hfst
    (Multiset.forall_mem_cons.2 ⟨hab, fun c hc => hab.trans (hb c hc)⟩)
  obtain ⟨y, R, hRfst, hQsnd, hy, hQcost⟩ := exists_longest_of_map_eq hQfst hb
  have hyx : y ≤ x := by
    obtain ⟨q, hq, rfl⟩ := Multiset.mem_map.1 (hQsnd ▸ Multiset.mem_cons_self y _ : y ∈ Q.map Prod.snd)
    exact hx q hq
  rw [hPsnd, hQsnd] at hk
  obtain ⟨hpos, hmerged⟩ := hk.merge (Multiset.forall_mem_map_iff.2 hy)
  refine ⟨(a + b, y - 1) ::ₘ R, by rw [Multiset.map_cons, hRfst], by rwa [Multiset.map_cons], ?_⟩
  obtain ⟨z, rfl⟩ := Nat.exists_eq_add_of_le' hpos
  have hax : a * (z + 1) ≤ a * x := Nat.mul_le_mul_left a hyx
  simp only [lengthCost_cons, Nat.add_sub_cancel, Nat.mul_succ, Nat.add_mul] at hax hQcost ⊢
  omega

/-! ### The merge loop -/

/-- The weights of the queued nodes. -/
def queueWeights (nodes : List Node) (h : List Word) : Multiset ℕ := (h.map (fun n => (weightOf nodes n).toNat) : List ℕ)

variable {ft : List FtEntry} {nodes : List Node} {h : List Word}

theorem queueWeights_perm {h' : List Word} (hp : h.Perm h') : queueWeights nodes h = queueWeights nodes h' :=
  Multiset.coe_eq_coe.2 (hp.map _)

@[simp] theorem queueWeights_cons (nodes : List Node) (n : Word) (h : List Word) :
    queueWeights nodes (n :: h) = (weightOf nodes n).toNat ::ₘ queueWeights nodes h := rfl

/-- The weights a merge leaves in the queue (R132). -/
theorem queueWeights_merged {a b w : Word} {rest : List Word} (hf : Forest ft nodes (a :: b :: rest))
    (hlen : nodes.length < 2 ^ 32) :
    queueWeights (nodes ++ [.internal w a b]) (BitVec.ofNat 32 nodes.length :: rest) =
      w.toNat ::ₘ queueWeights nodes rest := by
  have hindex : (BitVec.ofNat 32 nodes.length).toNat = nodes.length := by
    rw [BitVec.toNat_ofNat, Nat.mod_eq_of_lt hlen]
  have hnew : weightOf (nodes ++ [.internal w a b]) (BitVec.ofNat 32 nodes.length) = w := by
    simp [weightOf, hindex, nodeWeight]
  have hold : ∀ n ∈ rest, (weightOf (nodes ++ [.internal w a b]) n).toNat = (weightOf nodes n).toNat := fun n hn => by
    rw [weightOf_append _ (hf.root_lt (by simp [hn]))]
  rw [queueWeights_cons, hnew, queueWeights, List.map_congr_left hold, queueWeights]

/-- The merges cost no more than any lengths for the queued weights that satisfy Kraft's inequality (R136). -/
theorem mergeCost_mergeLoop_le {L : ℕ} : ∀ (fuel : Nat) {nodes nodes' : List Node} {h h' : List Word}
    {P : Multiset (ℕ × ℕ)}, QueueOk ft nodes h → P.map Prod.fst = queueWeights nodes h → KraftAt L (P.map Prod.snd) →
    mergeLoop fuel nodes h = some (nodes', h') → mergeCost nodes' ≤ mergeCost nodes + lengthCost P
  | 0, nodes, nodes', h, h', P, hq, hfst, hk, hm => by
    obtain ⟨rfl, -⟩ : nodes = nodes' ∧ h = h' := by simpa [mergeLoop] using hm
    exact Nat.le_add_right _ _
  | fuel + 1, nodes, nodes', h, h', P, hq, hfst, hk, hm => by
    rw [mergeLoop] at hm
    split at hm
    · rename_i h2
      obtain ⟨a, b, r1, r2, ha, hb, hperm, hfits, hmerge, hq'⟩ := mergeTwo_spec hq h2
      obtain ⟨hab, hbr⟩ := hq.dequeue_least ha hb
      rw [hmerge] at hm
      rw [queueWeights_perm hperm, queueWeights_cons, queueWeights_cons] at hfst
      obtain ⟨P', hfst', hk', hcost⟩ := exists_merged hfst hab (by simpa [queueWeights] using hbr) hk
      rw [← BitVec.toNat_add_of_lt hfits] at hfst' hcost
      rw [← queueWeights_merged (hq.forest.perm hperm) hq.nodes_lt,
        ← queueWeights_perm (heapEnqueue_perm _ _ _)] at hfst'
      have hloop := mergeCost_mergeLoop_le fuel hq' hfst' hk' hm
      rw [mergeCost_append] at hloop
      omega
    · obtain ⟨rfl, -⟩ : nodes = nodes' ∧ h = h' := by simpa using hm
      exact Nat.le_add_right _ _

/-! ### Kraft's inequality for a table of codes -/

variable {codes : List BitString}

theorem PrefixFree.nodup (hc : PrefixFree codes) : codes.Nodup := by
  refine List.nodup_iff_getElem?_ne_getElem?.2 fun i j hij hj heq => ?_
  have hget := List.getElem?_eq_getElem hj
  exact hc i j _ _ (heq.trans hget) hget hij.ne List.prefix_rfl

/-- Two codes one of which begins the other are one code (R155). -/
theorem PrefixFree.eq_of_isPrefix (hc : PrefixFree codes) {p q : BitString} (hp : p ∈ codes) (hq : q ∈ codes)
    (hpq : p <+: q) : p = q := by
  obtain ⟨i, hi⟩ := List.mem_iff_getElem?.1 hp
  obtain ⟨j, hj⟩ := List.mem_iff_getElem?.1 hq
  by_cases hij : i = j
  · subst hij
    exact Option.some.inj (hi.symm.trans hj)
  · exact absurd hpq (hc i j p q hi hj hij)

/-- Of two or more codes none is empty (R155). -/
theorem PrefixFree.nil_notMem (hc : PrefixFree codes) (h2 : 2 ≤ codes.length) : [] ∉ codes := by
  intro hnil
  match codes, h2 with
  | p :: q :: rest, _ =>
    have hp : [] = p := hc.eq_of_isPrefix hnil List.mem_cons_self List.nil_prefix
    exact hc 0 1 p q rfl rfl (by decide) (hp ▸ List.nil_prefix)

/-- A string is cut into codes in one way (R155). -/
theorem PrefixFree.uniquelyDecodable (hc : PrefixFree codes) (hnil : [] ∉ codes) :
    InformationTheory.UniquelyDecodable {p | p ∈ codes}
  | [], [], _, _, _ => rfl
  | [], q :: qs, _, hq, heq => by
    have hnilq : q = [] := (List.append_eq_nil_iff.1 heq.symm).1
    exact absurd (hnilq ▸ hq q List.mem_cons_self) hnil
  | p :: ps, [], hp, _, heq => by
    have hnilp : p = [] := (List.append_eq_nil_iff.1 heq).1
    exact absurd (hnilp ▸ hp p List.mem_cons_self) hnil
  | p :: ps, q :: qs, hp, hq, heq => by
    have hpmem := hp p List.mem_cons_self
    have hqmem := hq q List.mem_cons_self
    rw [List.flatten_cons, List.flatten_cons] at heq
    have hpq : p = q := by
      rcases List.prefix_or_prefix_of_prefix (List.prefix_append p ps.flatten) (heq ▸ List.prefix_append q qs.flatten)
        with h | h
      · exact hc.eq_of_isPrefix hpmem hqmem h
      · exact (hc.eq_of_isPrefix hqmem hpmem h).symm
    subst hpq
    rw [hc.uniquelyDecodable hnil ps qs (fun w hw => hp w (List.mem_cons_of_mem _ hw))
      (fun w hw => hq w (List.mem_cons_of_mem _ hw)) (List.append_cancel_left heq)]

/-- The lengths of a table of codes satisfy Kraft's inequality: one code alone does, and more are uniquely decodable. -/
theorem PrefixFree.kraftAt (hc : PrefixFree codes) {L : ℕ} (hL : ∀ p ∈ codes, p.length ≤ L) :
    KraftAt L (codes.map List.length : List ℕ) := by
  refine ⟨by simpa using hL, ?_⟩
  rw [kraftSum, Multiset.map_coe, Multiset.sum_coe, List.map_map]
  rcases Nat.lt_or_ge codes.length 2 with h1 | h2
  · match codes, h1 with
    | [], _ => simp
    | [p], _ => simpa using Nat.pow_le_pow_right (by decide) (Nat.sub_le L p.length)
  · have hkraft := InformationTheory.kraft_mcmillan_inequality (S := codes.toFinset)
      (by simpa using hc.uniquelyDecodable (hc.nil_notMem h2))
    rw [List.sum_toFinset _ hc.nodup] at hkraft
    have hscale : (((codes.map (fun p => 2 ^ (L - p.length))).sum : ℕ) : ℝ) =
        2 ^ L * (codes.map (fun p => (1 / (Fintype.card Bool : ℝ)) ^ p.length)).sum := by
      rw [Nat.cast_list_sum, ← List.sum_map_mul_left, List.map_map]
      refine congrArg _ (List.map_congr_left fun p hp => ?_)
      simp [pow_sub₀ (2 : ℝ) two_ne_zero (hL p hp)]
    have hreal : (((codes.map (fun p => 2 ^ (L - p.length))).sum : ℕ) : ℝ) ≤ ((2 ^ L : ℕ) : ℝ) := by
      rw [hscale, Nat.cast_pow, Nat.cast_ofNat]
      exact mul_le_of_le_one_right (by positivity) hkraft
    exact Nat.cast_le.1 hreal

/-! ### The codes built -/

/-- TREE_INIT queues the frequencies as weights (R131). -/
theorem queueWeights_enqueueLeaves (ft : List FtEntry) (hk : ft.length ≤ 2 ^ 16) :
    queueWeights (leafNodes ft) (enqueueLeaves (leafNodes ft) ft.length) = (ft.map (fun e => e.freq.toNat) : List ℕ) := by
  obtain ⟨hperm, -⟩ := enqueueLeaves_spec (leafNodes ft) (k := ft.length) (by omega)
  have hweights : queueWeights (leafNodes ft) (enqueueLeaves (leafNodes ft) ft.length) =
      (((List.range ft.length).map (weightAt (leafNodes ft)) : List ℕ) : Multiset ℕ) := by
    rw [← Multiset.coe_eq_coe.2 (hperm.map (weightAt (leafNodes ft))), List.map_map, queueWeights]
    exact congrArg _ (List.map_congr_left fun n _ => weightOf_toNat_eq _ n)
  rw [hweights]
  refine congrArg _ (List.ext_getElem (by simp) fun i h1 h2 => ?_)
  have hi : i < ft.length := by simpa using h2
  rw [List.getElem_map, List.getElem_range, weightAt_of_getElem? (nd := .leaf ft[i].sym ft[i].freq)
    (by simp; omega) (by simp [leafNodes, hi])]
  simp [nodeWeight]

/-- Each frequency with the length of its slot's code. -/
def codeLengths (ft : List FtEntry) (codes : List BitString) : Multiset (ℕ × ℕ) :=
  (ft.zip codes).map (fun x => (x.1.freq.toNat, x.2.length))

theorem lengthCost_codeLengths (ft : List FtEntry) (codes : List BitString) :
    lengthCost (codeLengths ft codes) = codeCost ft codes := by
  simp [lengthCost, codeLengths, codeCost, Function.comp_def]

theorem codeLengths_fst (hcodes : codes.length = ft.length) :
    (codeLengths ft codes).map Prod.fst = (ft.map (fun e => e.freq.toNat) : List ℕ) := by
  conv_rhs => rw [← List.map_fst_zip (l₁ := ft) (l₂ := codes) hcodes.ge, List.map_map]
  rw [codeLengths, Multiset.map_coe, List.map_map]
  rfl

theorem codeLengths_snd (hcodes : codes.length = ft.length) :
    (codeLengths ft codes).map Prod.snd = (codes.map List.length : List ℕ) := by
  conv_rhs => rw [← List.map_snd_zip (l₁ := ft) (l₂ := codes) hcodes.le, List.map_map]
  rw [codeLengths, Multiset.map_coe, List.map_map]
  rfl

/-- The merges of a table's leaves weigh no more than any table of codes costs in which no code begins another (R136). -/
theorem mergeCost_le_codeCost (hleaves : QueueOk ft (leafNodes ft) (enqueueLeaves (leafNodes ft) ft.length))
    (hm : mergeLoop ft.length (leafNodes ft) (enqueueLeaves (leafNodes ft) ft.length) = some (nodes, h))
    (hcodes : codes.length = ft.length) (hc : PrefixFree codes) : mergeCost nodes ≤ codeCost ft codes := by
  have hbound : ∀ p ∈ codes, p.length ≤ (codes.map List.length).sum := fun p hp =>
    List.le_sum_of_mem (List.mem_map_of_mem hp)
  have hweights : (codeLengths ft codes).map Prod.fst =
      queueWeights (leafNodes ft) (enqueueLeaves (leafNodes ft) ft.length) := by
    rw [codeLengths_fst hcodes, queueWeights_enqueueLeaves ft hleaves.small]
  have hlower := mergeCost_mergeLoop_le ft.length hleaves hweights (codeLengths_snd hcodes ▸ hc.kraftAt hbound) hm
  rwa [mergeCost_leafNodes, Nat.zero_add, lengthCost_codeLengths] at hlower

/-- Settles O56: the codes of the built tree cost what its merges weigh. -/
theorem builtCodesAreOptimal : Obligations.BuiltCodesAreOptimal := by
  intro s hs hp hk
  obtain ⟨nodes, r, hm, hq⟩ := hs.mergeLoop_leaves hk
  refine ⟨_, runCommands_build hp hk hm, rfl, rfl, fun codes hcodes hc => ?_⟩
  calc codeCost s.ft (walk nodes nodes.length r [] (blankCodes s.k))
      = mergeCost nodes := hq.forest.codeCost_walk hq.nodes_lt.le (by simp [blankCodes, State.k])
    _ ≤ codeCost s.ft codes := mergeCost_le_codeCost (queueOk_leafNodes hs.table_le hs.total_lt) hm hcodes hc

end Sys2Proof.Machine
end

section
/-! PROOFS. The code table (43_code_table.md R150 to R155): what CODES_BUILD writes, what the queries of a code answer, and
that no code begins another. -/

namespace Sys2Proof.Machine

variable {s : State} {sym : Symbol} {i : Nat} {p : BitString}

/-! ### The paths -/

/-- Every code the walk writes is the path from the root to its slot's leaf (R151). -/
theorem TreeDone.path_of_codesOf (hd : TreeDone s) (hlen : s.nodes.length ≤ 2 ^ 32) (hp : (codesOf s)[i]? = some p) :
    (descend s.nodes s.root p).map BitVec.toNat = some i := by
  have hi : i < s.k := codesOf_length s ▸ (List.getElem?_eq_some_iff.1 hp).1
  obtain ⟨q, hq, hpath⟩ := hd.codesOf_paths hlen hi
  obtain rfl : p = q := Option.some.inj (hp.symm.trans hq)
  exact hpath

/-- Settles O33: CODES_BUILD writes what the walk from the root of the complete tree does. -/
theorem codesBuildWritesThePaths : Obligations.CodesBuildWritesThePaths := by
  intro s hs hp
  have hd := hs.treeDone (.inl hp)
  exact ⟨codesOf s, exec_codesBuild_of_tree hp, codesOf_length s, fun i p => hd.path_of_codesOf (hs.nodes_le hd)⟩

theorem codeAt_of_getElem? (hp : s.code[i]? = some p) : codeAt s i = p := by simp [codeAt, hp]

/-- Every entry of a valid code table is the path from the root to its slot's leaf (R150). -/
theorem CodesValid.path (hc : CodesValid s) (hp : s.code[i]? = some p) :
    i < s.k ∧ (descend s.nodes s.root p).map BitVec.toNat = some i := by
  obtain ⟨hlen, hpath⟩ := hc
  have hi : i < s.k := hlen ▸ (List.getElem?_eq_some_iff.1 hp).1
  exact ⟨hi, codeAt_of_getElem? hp ▸ hpath i hi⟩

/-! ### The prefix-code property -/

/-- Where one path begins another and ends at a leaf, the other ends there too: from a leaf no path goes on (R155). -/
theorem Forest.leaf_eq_of_isPrefix {ft : List FtEntry} {nodes : List Node} {roots : List Word} {root : Word}
    {q : BitString} {j : Nat} (hf : Forest ft nodes roots) (hi : i < ft.length)
    (hp : (descend nodes root p).map BitVec.toNat = some i) (hq : (descend nodes root q).map BitVec.toNat = some j)
    (hpq : p <+: q) : i = j := by
  obtain ⟨rest, rfl⟩ := hpq
  obtain ⟨m, hm, rfl⟩ := Option.map_eq_some_iff.1 hp
  obtain ⟨m', hm', rfl⟩ := Option.map_eq_some_iff.1 hq
  have hrest : descend nodes m rest = some m' := by simpa [descend_append, hm] using hm'
  obtain ⟨-, hbound⟩ := hf.path_bound rest hrest
  cases rest with
  | nil => rw [Option.some.inj hrest]
  | cons b rest =>
    have hinner : (b :: rest).length + ft.length ≤ m.toNat + 1 := hbound (by simp)
    rw [List.length_cons] at hinner
    omega

/-- The codes that are the paths of a complete tree form a prefix code (R155). -/
theorem TreeDone.prefixFree (hd : TreeDone s) (hc : CodesValid s) : PrefixFree s.code := by
  intro i j p q hp hq hij hpq
  obtain ⟨hi, hpathp⟩ := hc.path hp
  obtain ⟨-, hpathq⟩ := hc.path hq
  exact hij (hd.forest.leaf_eq_of_isPrefix hi hpathp hpathq hpq)

/-- Settles O55: the codes are the paths to the leaves of one tree, one for each slot. -/
theorem codesArePrefixFree : Obligations.CodesArePrefixFree := by
  intro s hs hp
  have hc := hs.codesValid hp
  have ⟨hlen, _⟩ := hc
  refine ⟨hlen, (hs.treeDone (.inr hp)).prefixFree hc, hs.unique, fun sym => ?_⟩
  rw [lookup_ne_none_iff, List.mem_map]

/-! ### The queries -/

/-- CODE_LEN of the symbol of slot i (R153). -/
theorem exec_codeLen_of_lookup (hp : s.phase = .coded) (hi : lookup s.ft sym = some i) :
    exec (.codeLen sym) s = .next { completed s with res0 := zext32 (codeAt s i).length, res1 := zext32 i } := by
  show execCodeLen sym s = _
  rw [execCodeLen, if_neg (not_not.2 hp), hi]
  rfl

/-- CODE_WORD of the symbol of slot i (R154). -/
theorem exec_codeWord_of_lookup (hp : s.phase = .coded) (hi : lookup s.ft sym = some i) :
    exec (.codeWord sym) s = .next { completed s with res0 := pack (codeAt s i) s.arg.toNat } := by
  show execCodeWord sym s = _
  rw [execCodeWord, if_neg (not_not.2 hp), hi]
  rfl

theorem zext32_toNat {n : Nat} (hn : n < 2 ^ 32) : (zext32 n).toNat = n :=
  (BitVec.toNat_ofNat n 32).trans (Nat.mod_eq_of_lt hn)

/-- Settles O34: slot and length stay below the bound of the alphabet, so RES0 and RES1 hold them exactly. -/
theorem codeQueriesReturnTheCode : Obligations.CodeQueriesReturnTheCode := by
  intro s sym i p hs hp hi hcode
  have hslot : lookup s.ft sym = some i := (lookup_eq_some_iff hs.unique).2 hi
  obtain ⟨hik, hpath⟩ := (hs.codesValid hp).path hcode
  obtain ⟨m, hm, -⟩ := Option.map_eq_some_iff.1 hpath
  have hlen : p.length ≤ s.k - 1 := (hs.treeDone (.inr hp)).path_length_le hm
  have hk : s.k ≤ 2 ^ 16 := hs.table_le
  rw [exec_codeLen_of_lookup hp hslot, exec_codeWord_of_lookup hp hslot, codeAt_of_getElem? hcode]
  exact ⟨⟨_, _, zext32_toNat (by omega), zext32_toNat (by omega), rfl⟩, _, fun b hb => pack_getLsbD p _ b hb, rfl⟩

/-- Settles O35: the phase is the first check of all three commands, Lookup their second. -/
theorem missingCodeChecks : Obligations.MissingCodeChecks := by
  refine fun s sym => ⟨fun hp => ⟨?_, ?_, ?_⟩, fun hp hnew => ?notLoaded⟩
  case notLoaded =>
    have hnone : lookup s.ft sym = none := (lookup_eq_none _ _).2 hnew
    refine ⟨?_, ?_, ?_⟩
    all_goals
      refine (if_neg (not_not.2 hp)).trans ?_
      rw [hnone]
      exact raise_eq _ s (by decide)
  all_goals exact (if_pos hp).trans (raise_eq _ s (by decide))

end Sys2Proof.Machine
end

section
/-! PROOFS. The encoder (44_encoder.md R170 to R173): what ENCODE and OUT_READ answer, and what a sequence of symbols adds to
the output. -/

namespace Sys2Proof.Machine

variable {s : State} {sym : Symbol} {i : Nat}

/-! ### ENCODE and OUT_READ -/

/-- ENCODE of the symbol of slot i, where its code does not fit the output (R170, R215). -/
theorem exec_encode_of_overflow (hp : s.phase = .coded) (hi : lookup s.ft sym = some i)
    (hfull : s.params.outCap < s.outLen + (codeAt s i).length) :
    exec (.encode sym) s = .next (aborted .outputOverflow s) := by
  show execEncode sym s = _
  rw [execEncode, if_neg (not_not.2 hp), hi]
  exact (if_pos hfull).trans (raise_eq _ s (by decide))

/-- Settles O36: Lookup finds the symbol's one slot, and the room for its code is the last check. -/
theorem encodeAppendsTheCode : Obligations.EncodeAppendsTheCode := by
  intro s sym i p hs hp hi hcode
  have hslot : lookup s.ft sym = some i := (lookup_eq_some_iff hs.unique).2 hi
  obtain rfl : codeAt s i = p := codeAt_of_getElem? hcode
  exact ⟨exec_encode_of_fits hp hslot, exec_encode_of_overflow hp hslot⟩

/-- Settles O37: OUT_READ answers a packed word of the output, bit by bit as `pack_getLsbD` says. -/
theorem outReadReturnsThePackedBits : Obligations.OutReadReturnsThePackedBits :=
  fun s => ⟨pack s.out s.arg.toNat, fun b hb => pack_getLsbD s.out _ b hb, rfl⟩

/-! ### A sequence of symbols -/

/-- The code that ENCODE appends for a loaded symbol: that of the slot Lookup finds (R170). -/
def codeOf (s : State) (sym : Symbol) : BitString := codeAt s ((lookup s.ft sym).getD 0)

theorem codeOf_of_lookup (hi : lookup s.ft sym = some i) : codeOf s sym = codeAt s i := by
  rw [codeOf, hi, Option.getD_some]

/-- ENCODE of a loaded symbol whose code fits the output (R170). -/
theorem exec_encode_of_loaded (hp : s.phase = .coded) (hsym : ∃ e ∈ s.ft, e.sym = sym)
    (hroom : s.outLen + (codeOf s sym).length ≤ s.params.outCap) :
    exec (.encode sym) s = .next { completed s with out := s.out ++ codeOf s sym } := by
  obtain ⟨i, hi⟩ := Option.ne_none_iff_exists'.1 (lookup_ne_none_iff.2 hsym)
  rw [codeOf_of_lookup hi] at hroom ⊢
  exact exec_encode_of_fits hp hi hroom

/-- A sequence of loaded symbols whose codes fit appends them in order (R173). -/
theorem runCommands_encode (t : List Symbol) : ∀ s : State, s.phase = .coded → (∀ c ∈ t, ∃ e ∈ s.ft, e.sym = c) →
    s.outLen + (t.flatMap (codeOf s)).length ≤ s.params.outCap →
    ∃ u, runCommands (t.map .encode) s = .next u ∧ u.out = s.out ++ t.flatMap (codeOf s) ∧ u.code = s.code ∧
      u.ft = s.ft ∧ u.phase = .coded := by
  induction t with
  | nil => exact fun s hp _ _ => ⟨s, rfl, (List.append_nil _).symm, rfl, rfl, hp⟩
  | cons c t ih =>
    intro s hp hloaded hroom
    obtain ⟨hc, ht⟩ := List.forall_mem_cons.1 hloaded
    rw [List.flatMap_cons, List.length_append, ← Nat.add_assoc] at hroom
    have hfirst := exec_encode_of_loaded hp hc (Nat.le_of_add_right_le hroom)
    have hrest : (s.out ++ codeOf s c).length + (t.flatMap (codeOf s)).length ≤ s.params.outCap := by
      rwa [List.length_append]
    obtain ⟨u, hrun, hout, hsame⟩ := ih { completed s with out := s.out ++ codeOf s c } hp ht hrest
    exact ⟨u, (runCommands_cons hfirst).trans hrun, hout.trans (List.append_assoc ..), hsame⟩

/-- Settles O38: the output grows by the concatenated codes, whose length is the sum of theirs. -/
theorem encodingASequenceAppendsItsCodes : Obligations.EncodingASequenceAppendsItsCodes := by
  intro t s hp hloaded _ hroom
  have hlen : (t.flatMap (codeOf s)).length = (t.map fun c => (codeOf s c).length).sum := List.length_flatMap
  obtain ⟨u, hrun, hout, hsame⟩ := runCommands_encode t s hp hloaded (hlen ▸ hroom)
  have houtLen : u.outLen = s.outLen + (t.map fun c => (codeOf s c).length).sum := by
    rw [State.outLen, hout, List.length_append, hlen, State.outLen]
  exact ⟨u, hrun, hout, houtLen, hsame⟩

/-! ### The counted sequence -/

/-- A sum over a sequence, taken symbol by symbol of the table the sequence was counted into (R173). -/
theorem sum_map_of_counted {ft : List FtEntry} {t : List Symbol} (f : Symbol → Nat)
    (hunique : (ft.map FtEntry.sym).Nodup) (hloaded : ∀ c ∈ t, ∃ e ∈ ft, e.sym = c)
    (hcount : ∀ e ∈ ft, t.count e.sym = e.freq.toNat) :
    (t.map f).sum = (ft.map fun e => e.freq.toNat * f e.sym).sum := by
  have hsub : t.toFinset ⊆ (ft.map FtEntry.sym).toFinset := fun c hc =>
    List.mem_toFinset.2 (List.mem_map.2 (hloaded c (List.mem_toFinset.1 hc)))
  have hunused : ∀ c, c ∉ t.toFinset → t.count c * f c = 0 := fun c hc => by
    rw [List.count_eq_zero_of_not_mem (mt List.mem_toFinset.2 hc), Nat.zero_mul]
  calc (t.map f).sum
      = ∑ c ∈ t.toFinset, t.count c * f c := Finset.sum_list_map_count t f
    _ = ∑ c ∈ (ft.map FtEntry.sym).toFinset, t.count c * f c := Finset.sum_subset hsub fun c _ => hunused c
    _ = ((ft.map FtEntry.sym).map fun c => t.count c * f c).sum := List.sum_toFinset _ hunique
    _ = (ft.map fun e => e.freq.toNat * f e.sym).sum := by
      rw [List.map_map]
      exact congrArg List.sum (List.map_congr_left fun e he => congrArg (· * f e.sym) (hcount e he))

/-- In a table of distinct symbols the code of slot i is the code of its symbol. -/
theorem codeOf_slot (hunique : (s.ft.map FtEntry.sym).Nodup) {e : FtEntry} {p : BitString} (he : s.ft[i]? = some e)
    (hcode : s.code[i]? = some p) : codeOf s e.sym = p := by
  rw [codeOf_of_lookup ((lookup_eq_some_iff hunique).2 (by rw [he, Option.map_some])), codeAt_of_getElem? hcode]

/-- The weighted code length, with each slot's code as that of its symbol. -/
theorem codeCost_eq_sum (hunique : (s.ft.map FtEntry.sym).Nodup) (hlen : s.code.length = s.k) :
    codeCost s.ft s.code = (s.ft.map fun e => e.freq.toNat * (codeOf s e.sym).length).sum := by
  refine congrArg List.sum (List.ext_getElem (by simp [hlen, State.k]) fun i h1 h2 => ?_)
  have hft : i < s.ft.length := by simpa using h2
  have hcode : i < s.code.length := hlen ▸ hft
  simp [codeOf_slot hunique (List.getElem?_eq_getElem hft) (List.getElem?_eq_getElem hcode)]

/-- Settles O39: every slot's code is appended as often as its frequency says. -/
theorem outputLengthIsTheCost : Obligations.OutputLengthIsTheCost := by
  intro t s hs hp hempty hloaded hcount hroom
  obtain ⟨hlen, -⟩ := hs.codesValid hp
  have hcost : s.outLen + (t.map fun c => (codeOf s c).length).sum = codeCost s.ft s.code := by
    rw [sum_map_of_counted _ hs.unique hloaded hcount, ← codeCost_eq_sum hs.unique hlen, State.outLen, hempty,
      List.length_nil, Nat.zero_add]
  obtain ⟨u, hrun, -, houtLen, -⟩ := encodingASequenceAppendsItsCodes t s hp hloaded (hcost.trans_le hroom)
  exact ⟨u, hrun, houtLen.trans hcost⟩

end Sys2Proof.Machine
end

section
/-! PROOFS. The control commands (45_system.md R180 to R182; 44_encoder.md R172): their next states, and STATUS after each
as the old STATUS under a mask (10_state.md R26). -/

namespace Sys2Proof.Machine

/-! ### STATUS under a mask -/

/-- The mask of STATUS that keeps the bits `p` of PHASE, OVERRUN where `o` and STICKY where `k`, and neither LAST nor BUSY
(R26). -/
def statusMask (p : BitVec 2) (o k : Bool) : Word :=
  0#16 ++ 0#8 ++ 0#2 ++ p ++ 0#1 ++ BitVec.ofBool o ++ BitVec.ofBool k ++ 0#1

/-- A mask acts on STATUS field by field. -/
theorem statusWord_and_statusMask (s : State) (p : BitVec 2) (o k : Bool) : statusWord s &&& statusMask p o k =
    0#16 ++ codeByte .ok ++ 0#2 ++ (phaseBits s.phase &&& p) ++ 0#1 ++ BitVec.ofBool (s.overrun && o) ++
      BitVec.ofBool (s.sticky && k) ++ BitVec.ofBool false := by
  refine BitVec.and_append.trans (congrArg₂ _ ?_ (BitVec.and_zero (x := BitVec.ofBool s.busy)))
  simp only [BitVec.and_append, BitVec.ofBool_and_ofBool, BitVec.and_zero]
  rfl

/-- After a completion LAST is OK and BUSY is 0, so STATUS reads the old one masked to the fields u kept; the others are 0
in u. -/
theorem statusWord_completed_eq_and {s u : State} {p : BitVec 2} {o k : Bool}
    (hphase : phaseBits u.phase = phaseBits s.phase &&& p) (hoverrun : u.overrun = (s.overrun && o))
    (hsticky : u.sticky = (s.sticky && k)) : statusWord (completed u) = statusWord s &&& statusMask p o k := by
  rw [statusWord_and_statusMask, ← hphase, ← hoverrun, ← hsticky]
  rfl

/-! ### The four commands -/

/-- NOP and OUT_CLEAR keep PHASE, OVERRUN and STICKY, CLEAR the last two, ERR_ACK the first. -/
theorem statusMask_values : statusMask 3#2 true true = 0x36#32 ∧ statusMask 0#2 true true = 0x06#32 ∧
    statusMask 3#2 false false = 0x30#32 := by decide

/-- Settles O17: each command commits its writes, and what they are to PHASE, OVERRUN and STICKY gives the mask. -/
theorem controlCommands : Obligations.ControlCommands := by
  intro s
  obtain ⟨hkeepAll, hkeepFlags, hkeepPhase⟩ := statusMask_values
  have hphase : phaseBits s.phase = phaseBits s.phase &&& 3#2 := BitVec.and_allOnes.symm
  have hoverrun : s.overrun = (s.overrun && true) := (Bool.and_true _).symm
  have hsticky : s.sticky = (s.sticky && true) := (Bool.and_true _).symm
  rw [← hkeepAll, ← hkeepFlags, ← hkeepPhase]
  refine ⟨⟨finish_eq s, ?nop⟩, ⟨_, finish_eq _, ?clear, rfl⟩,
    ⟨_, finish_eq _, ?errAck, rfl⟩, ⟨_, finish_eq _, ?outClear, rfl⟩⟩
  case nop | outClear => exact statusWord_completed_eq_and hphase hoverrun hsticky
  case clear => exact statusWord_completed_eq_and BitVec.and_zero.symm hoverrun hsticky
  case errAck => exact statusWord_completed_eq_and hphase (Bool.and_false _).symm (Bool.and_false _).symm

end Sys2Proof.Machine
end

section
/-! PROOFS. The exceptions (60_exceptions.md R200 to R216): every command completes, with which codes, what a failing one leaves
as it was, and which commands and words report ILLEGAL_COMMAND and INDEX_RANGE. -/

namespace Sys2Proof.Machine

variable {s t : State} {i : Instr}

/-! ### Every command -/

/-- Settles O10: a failing command writes only the completion state, and a successful one leaves ARG, the configuration and the
environment, and OVERRUN unless it is ERR_ACK. -/
theorem everyCommandCompletes : Obligations.EveryCommandCompletes := by
  intro i s
  rcases exec_ends i s with ⟨c, -, -, he⟩ | ⟨u, he, hu⟩
  · exact ⟨_, he, rfl, rfl, rfl, rfl, fun _ => rfl⟩
  · exact ⟨_, he, rfl, hu.arg, hu.params, hu.env, fun hack => hu.overrun.trans (if_neg hack)⟩

/-- A command that reports an error reports one of its row of R202 and aborts (R205). -/
theorem exec_next_of_error (he : exec i s = .next t) (herr : t.last ≠ .ok) :
    t.last ∈ errorsOf i ∧ t = aborted t.last s := by
  rcases exec_next_cases he with ⟨c, hmem, -, rfl⟩ | ⟨u, rfl, -⟩
  · exact ⟨hmem, rfl⟩
  · exact absurd rfl herr

/-- Settles O11: the state after is the aborted one, which states the frame. -/
theorem failedCommandChangesNothingElse : Obligations.FailedCommandChangesNothingElse :=
  fun _ _ _ he herr => (exec_next_of_error he herr).2

/-- Settles O12: the code of an abort is one of the command's row; that TREE_BUILD's queue is never found empty is in
`execTreeBuild_ends`. -/
theorem errorCodesOfEachCommand : Obligations.ErrorCodesOfEachCommand :=
  fun _ _ _ he herr => (exec_next_of_error he herr).1

/-- Settles O13: an abort sets STICKY, and of the commands that succeed only ERR_ACK writes it. -/
theorem stickyRecordsErrors : Obligations.StickyRecordsErrors := by
  intro i s t he
  rcases exec_next_cases he with ⟨c, -, hc, rfl⟩ | ⟨u, rfl, hu⟩
  · exact (if_pos hc).symm
  · have hok : ¬ (completed u).last ≠ .ok := by simp
    rw [if_neg hok]
    exact hu.sticky

/-! ### INDEX_RANGE -/

/-- Only the three reads have INDEX_RANGE in their row of R202. -/
theorem indexRange_mem_errorsOf (h : .indexRange ∈ errorsOf i) : i = .ftRead ∨ i = .nodeRead ∨ i = .heapRead := by
  cases i <;> simp [errorsOf] at h ⊢

/-- A read of entry j of a list that fails on no entry and succeeds on any fails exactly past the count. -/
theorem eq_aborted_indexRange_iff {α : Type} {l : List α} {j : Nat} {r : Result}
    (hnone : l[j]? = none → r = .next (aborted .indexRange s))
    (hsome : ∀ x, l[j]? = some x → ∃ t, r = .next t ∧ t.last = .ok) :
    r = .next (aborted .indexRange s) ↔ l.length ≤ j := by
  rw [← List.getElem?_eq_none_iff]
  refine ⟨fun hr => ?_, hnone⟩
  by_contra hvalid
  obtain ⟨x, hx⟩ := Option.ne_none_iff_exists'.1 hvalid
  obtain ⟨t, ht, hok⟩ := hsome x hx
  obtain rfl : aborted .indexRange s = t := Host.Outcome.next.inj (hr.symm.trans ht)
  simp at hok

theorem exec_ftRead_of_none (hn : s.ft[s.arg.toNat]? = none) : exec .ftRead s = .next (aborted .indexRange s) := by
  show execFtRead s = _
  rw [execFtRead, argIndex, hn]
  exact raise_eq _ s (by decide)

theorem exec_nodeRead_of_none (hn : s.nodes[s.arg.toNat]? = none) :
    exec .nodeRead s = .next (aborted .indexRange s) := by
  show execNodeRead s = _
  rw [execNodeRead, argIndex, hn]
  exact raise_eq _ s (by decide)

theorem exec_heapRead_of_none (hn : s.heap[s.arg.toNat]? = none) :
    exec .heapRead s = .next (aborted .indexRange s) := by
  have hpast : s.pqCount ≤ argIndex s := List.getElem?_eq_none_iff.1 hn
  show execHeapRead s = _
  rw [execHeapRead, if_pos hpast]
  exact raise_eq _ s (by decide)

/-- NODE_READ of a valid index succeeds, whichever kind of node it holds (R135). -/
theorem exec_nodeRead_of_getElem? {nd : Node} (hn : s.nodes[s.arg.toNat]? = some nd) :
    ∃ t, exec .nodeRead s = .next t ∧ t.last = .ok := by
  obtain ⟨hleaf, hinternal⟩ := nodeReadReturnsTheNode s
  cases nd with
  | leaf sym w =>
    obtain ⟨tag, -, he⟩ := hleaf sym w hn
    exact ⟨_, he, rfl⟩
  | internal w l r => exact ⟨_, hinternal w l r hn, rfl⟩

/-- Settles O21: each of the three reads fails exactly where its list has no entry ARG, and no other row of R202 has the
code. -/
theorem indexRangeExactlyPastTheCount : Obligations.IndexRangeExactlyPastTheCount := by
  refine ⟨rfl, fun s => ⟨?ftRead, ?nodeRead, ?heapRead, fun i t he hlast => ?others⟩⟩
  case ftRead => exact eq_aborted_indexRange_iff exec_ftRead_of_none fun _ hx => ⟨_, exec_ftRead_of_getElem? hx, rfl⟩
  case nodeRead => exact eq_aborted_indexRange_iff exec_nodeRead_of_none fun _ => exec_nodeRead_of_getElem?
  case heapRead => exact eq_aborted_indexRange_iff exec_heapRead_of_none fun _ hx => ⟨_, exec_heapRead_of_getElem? hx, rfl⟩
  case others =>
    obtain ⟨hmem, -⟩ := exec_next_of_error he (by simp [hlast])
    exact indexRange_mem_errorsOf (hlast ▸ hmem)

/-! ### ILLEGAL_COMMAND -/

/-- Settles O7: the core's move aborts in the state it starts from, which differs only in the schedule, a part of env. -/
theorem illegalCommandChangesOnlyCompletion : Obligations.IllegalCommandChangesOnlyCompletion := by
  refine ⟨rfl, fun s w c hp hm hd => ⟨aborted .illegalCommand (takeTurn s), ?_, ?_⟩⟩
  · rw [step_core hm hp, executeWord, hd]
    exact raise_eq _ _ (by decide)
  · rw [takeTurn_eq s (busy_of_pending hp)]
    rfl

end Sys2Proof.Machine
end

section
/-! PROOFS. Reset (70_reset_and_hazards.md R230; 10_state.md R41), and that BUSY always returns to 0 (70_reset_and_hazards.md
R239): with a command in flight every step of the host uses up an entry of the schedule, and then the core moves. -/

namespace Sys2Proof.Machine

variable {s t : State} {op : HostOp} {rest : List HostOp} {k : Nat}

/-! ### Reset -/

/-- A reset is one step, whatever was in flight: the state after it is that of R41, with the program's rest to come (R230). -/
theorem step_reset (hm : mover s = .host) (ho : s.env.ops = .reset :: rest) :
    step s = .next (State.atReset s.params { (takeTurn s).env with ops := rest }) := by
  rw [step_op hm ho rfl (by simp)]
  simp [opEffect, popOp, State.atReset, ho]

/-- After a reset every register but ROOT and those that identify the device reads 0 (R41). -/
theorem regContent_atReset (p : Params) (e : HostEnv) {r : Reg} (hid : r ≠ .id) (hversion : r ≠ .version)
    (hsyms : r ≠ .capSyms) (hout : r ≠ .capOut) (hroot : r ≠ .root) : regContent (State.atReset p e) r = 0#32 := by
  cases r with
  | id | version | capSyms | capOut | root => contradiction
  | status => exact BitVec.eq_of_toNat_eq (statusWord_toNat (State.atReset p e))
  | cmd | arg | res0 | res1 | res2 | res3 | alphaK | pqCount | nodeCount | outLen | totalW | reserved => rfl

/-- Settles O49: the state after the step is that of reset, and R41's table gives its registers. -/
theorem resetRestoresEverything : Obligations.ResetRestoresEverything := by
  intro s rest hm ho
  exact ⟨_, step_reset hm ho, rfl, rfl, rfl, fun r => regContent_atReset _ _, rfl, rfl, rfl, rfl, rfl, rfl, rfl, rfl⟩

/-! ### BUSY returns to 0 -/

/-- Within k steps BUSY is 0, or the host's program is refused. -/
def BusyEndsWithin (k : Nat) (s : State) : Prop :=
  ∃ n, n ≤ k ∧ ((∃ t, runSteps n s = .next t ∧ t.busy = false) ∨ ∃ r, runSteps n s = .refused r)

theorem busyEndsWithin_of_idle (hidle : s.busy = false) : BusyEndsWithin k s :=
  ⟨0, Nat.zero_le k, .inl ⟨s, rfl, hidle⟩⟩

theorem busyEndsWithin_of_refused {r : Refusal} (he : step s = .refused r) : BusyEndsWithin (k + 1) s :=
  ⟨1, Nat.le_add_left 1 k, .inr ⟨r, by rw [runSteps, he]⟩⟩

theorem busyEndsWithin_of_step (he : step s = .next t) (ht : BusyEndsWithin k t) : BusyEndsWithin (k + 1) s := by
  obtain ⟨n, hn, hrun⟩ := ht
  have hsteps : runSteps (n + 1) s = runSteps n t := by rw [runSteps, he]
  exact ⟨n + 1, Nat.succ_le_succ hn, by rwa [hsteps]⟩

/-- The core's move completes the command (R55, R200). -/
theorem busyEndsWithin_of_mover_core (hm : mover s = .core) : BusyEndsWithin (k + 1) s := by
  obtain ⟨w, hw⟩ := Option.isSome_iff_exists.1 (busy_of_mover_core hm)
  obtain ⟨t, ht, -, -, -, hdone⟩ := executeWord_next w (takeTurn s)
  exact busyEndsWithin_of_step ((step_core hm hw).trans ht) (busyEndsWithin_of_idle ((not_busy_iff t).2 hdone))

/-- No operation of the host touches the schedule. -/
@[simp] theorem opEffect_turns (op : HostOp) (s : State) : (opEffect op s).env.turns = s.env.turns := by
  cases op with
  | read | write | wait | reset => simp [opEffect]
  | check addr bytes v =>
    simp only [opEffect, hostCheck]
    split <;> simp

/-- With a command in flight the host moves only where the schedule says so (U18). -/
theorem turns_of_mover_host (hbusy : s.busy = true) (hm : mover s = .host) : ∃ turns, s.env.turns = .host :: turns := by
  rw [mover, if_pos hbusy] at hm
  split at hm
  next turns hturns => exact ⟨turns, hturns⟩
  all_goals cases hm

/-- With a command in flight the core moves, or the host's operation is refused, or it uses up an entry of the schedule. -/
theorem step_busy_cases (hbusy : s.busy = true) : mover s = .core ∨ (∃ r, step s = .refused r) ∨
    ∃ t, step s = .next t ∧ s.env.turns = .host :: t.env.turns := by
  rcases step_cases s with ⟨hidle, -, -⟩ | ⟨w, hm, -, -⟩ | ⟨op, rest, hm, ho, hhost⟩
  · simp [hbusy] at hidle
  · exact .inl hm
  · rw [hhost]
    cases hop : op.wellFormed (takeTurn s).params with
    | false => exact .inr (.inl (hostStep_illFormed hop))
    | true =>
      obtain ⟨turns, hturns⟩ := turns_of_mover_host hbusy hm
      refine .inr (.inr ⟨_, hostStep_wellFormed hop, ?_⟩)
      split <;> simp [takeTurn_eq s hbusy, hturns]

/-- BUSY ends by the time the schedule has run out and the core has made its move (R239). -/
theorem busyEndsWithin_turns (s : State) : BusyEndsWithin (s.env.turns.length + 1) s := by
  cases hbusy : s.busy with
  | false => exact busyEndsWithin_of_idle hbusy
  | true =>
    rcases step_busy_cases hbusy with hm | ⟨r, hr⟩ | ⟨t, ht, hturns⟩
    · exact busyEndsWithin_of_mover_core hm
    · exact busyEndsWithin_of_refused hr
    · rw [hturns]
      exact busyEndsWithin_of_step ht (busyEndsWithin_turns t)
termination_by s.env.turns.length
decreasing_by simp [hturns]

/-- Settles O8: by recursion on the schedule, of which the host's every move leaves one entry less. -/
theorem busyAlwaysEnds : Obligations.BusyAlwaysEnds := fun s _ => busyEndsWithin_turns s

end Sys2Proof.Machine
end
